-- ==== Sys2Proof/Word.lean ====
section
/-! DEFINITION. The bit-vector types of the block: bytes, 64-bit values and 142-bit bundles (spec/00_scope.md R8, R10). -/

namespace Sys2Proof

/-- A byte, and one 8-bit lane of a bundle (R10). -/
abbrev Byte := BitVec 8

/-- A 64-bit value: the accumulator, the working value, `in_value`, `out_value` (R8 `VALUE_WIDTH`, R10). -/
abbrev Word := BitVec 64

/-- The nine byte lanes of a bundle taken together, bits `[77:6]` of it (R61, R62). -/
abbrev LaneField := BitVec 72

/-- A request or a response bundle as it stands on its port (R60, R61, R62). -/
abbrev Bundle := BitVec 142

end Sys2Proof
end

