-- ==== Sys2Proof/Machine/Operands.lean ====
section
/-! DEFINITION. Operand forms: `n_avail`, the supplied bytes, the parts of a byte, the lane field, and the two readings
of a 64-bit pattern (spec/00_scope.md R8, R10, R11; spec/30_encoding.md R61, R64, R65, R66). -/

namespace Sys2Proof.Machine

/-- `MAX_LEN`, `IN_LANES` and `OUT_LANES` of R8: nine bytes. -/
abbrev maxLen : Nat := 9

/-- `CONT_BIT` of R8: the mask of bit 7. -/
abbrev contBit : Byte := 0x80#8

/-- `PAYLOAD_MASK` of R8. -/
abbrev payloadMask : Byte := 0x7F#8

/-- `FORCE9_THRESHOLD` of R8. -/
abbrev force9Threshold : Word := 0x00FFFFFFFFFFFFFF#64

/-- `n_avail = min(in_len, 9)` (R11, R64). -/
def nAvail (inLen : BitVec 4) : Nat := min inLen.toNat maxLen

/-- The bytes an operation may read: those of lanes `0` to `n_avail - 1` (R65).  On a well-formed request this is the
whole list. -/
def supplied (inLen : BitVec 4) (bytes : List Byte) : List Byte := bytes.take (nAvail inLen)

/-- Bit 7 of a byte, the continuation bit of bytes 0 to 7 (R10, R41). -/
def highBit (b : Byte) : Bool := b.getLsbD 7

/-- The seven payload bits of a byte, as `lane(i) & 0x7F` (R111). -/
def payload (b : Byte) : Byte := b &&& payloadMask

/-- Lane `k` of a lane field: bits `8k+7` down to `8k` (R42, R61, R62). -/
def lane (field : LaneField) (k : Nat) : Byte := field.extractLsb' (8 * k) 8

/-- The lane field that holds a byte list, byte `k` in lane `k`, with zero in every lane past the list; bytes past the
ninth fill no lane (R42, R69, R75). -/
def laneField : List Byte → LaneField
  | [] => 0
  | b :: rest => (laneField rest <<< 8) ||| b.zeroExtend 72

/-- `s64(u)`: a 64-bit pattern read as two's complement (R10). -/
def s64 (u : Word) : Int := u.toInt

/-- `u64(v)`: the 64-bit pattern of an int64 (R10, R66). -/
def u64 (v : Int) : Word := BitVec.ofInt 64 v

/-- `v` is an int64 (R8 `VALUE_WIDTH`). -/
def IsInt64 (v : Int) : Prop := -(2 : Int) ^ 63 ≤ v ∧ v < (2 : Int) ^ 63

end Sys2Proof.Machine
end

