-- ==== Sys2Proof/Syntax.lean ====
section
/-! DEFINITION. The requests of the block as syntax: one constructor for each row of spec/opcode_table.json
(spec/30_encoding.md R61, R63, R67). -/

namespace Sys2Proof

/-- One request, with the fields its operation uses (R67) and no others: a field an operation ignores can have no
effect because it is not here.

`PROBE` and `DECODE` carry `in_len` and the bytes the host supplies: by R65 a lane at or past `n_avail` holds no
value, so `bytes` is a list of `n_avail` bytes in wire order (`Instr.wellFormed`), never nine padded lanes. -/
inductive Instr where
  /-- Row `PROBE`, op 0b00 (R100, R101). -/
  | probe (inLen : BitVec 4) (bytes : List Byte)
  /-- Row `DECODE`, op 0b01 (R110, R111). -/
  | decode (inLen : BitVec 4) (bytes : List Byte)
  /-- Row `ENCODE`, op 0b10, with `in_value` (R130, R132). -/
  | encode (inValue : Word)
  /-- Row `RSVD`, op 0b11: the reserved encoding, which is answered all the same (R162). -/
  | rsvd
  deriving DecidableEq, Repr

end Sys2Proof
end

