-- ==== Sys2Proof/WellFormed.lean ====
section
/-! DEFINITION. Which requests are well formed: the input is a byte list of length `n_avail` (spec/30_encoding.md R64,
R65). -/

namespace Sys2Proof

/-- A request is well formed when its byte list has exactly `n_avail` bytes (R65: "A model represents the input as a
byte list of length `n_avail`").  `ENCODE` and the reserved request carry no list. -/
def Instr.wellFormed : Instr → Bool
  | .probe inLen bytes => bytes.length == Machine.nAvail inLen
  | .decode inLen bytes => bytes.length == Machine.nAvail inLen
  | .encode _ => true
  | .rsvd => true

end Sys2Proof
end

