-- ==== Sys2Proof/Decode.lean ====
section
/-! DEFINITION. The encoding of requests: the decoder from a 142-bit bundle and from bytes, and the encoder
(spec/30_encoding.md R61, R63 to R67, R74). -/

namespace Sys2Proof

/-! ### The fields of a bundle (R61, R62: requests and responses share the field positions) -/

/-- Bits `[1:0]`: `op` of a request, `status` of a response. -/
def opField (b : Bundle) : BitVec 2 := b.extractLsb' 0 2

/-- Bits `[5:2]`: `in_len` of a request, `out_len` of a response. -/
def lenField (b : Bundle) : BitVec 4 := b.extractLsb' 2 4

/-- Bits `[77:6]`: the nine lanes. -/
def lanesField (b : Bundle) : LaneField := b.extractLsb' 6 72

/-- Bits `[141:78]`: `in_value` of a request, `out_value` of a response. -/
def valueField (b : Bundle) : Word := b.extractLsb' 78 64

/-- Lane `i` of a bundle: bits `6+8i+7` down to `6+8i` (R61, R62). -/
def bundleLane (b : Bundle) (i : Nat) : Byte := b.extractLsb' (6 + 8 * i) 8

/-- The bundle with the given four fields, the value in the high bits (R61, R62). -/
def pack (op : BitVec 2) (len : BitVec 4) (lanes : LaneField) (value : Word) : Bundle :=
  value ++ lanes ++ len ++ op

/-! ### Decoding a request bundle -/

/-- The bytes a request supplies: lanes `0` to `n_avail - 1`; no other lane is read (R64, R65). -/
def suppliedBytes (b : Bundle) : List Byte :=
  (List.range (Machine.nAvail (lenField b))).map (bundleLane b)

/-- The request a bundle stands for (R63).  Every bundle stands for one: `op` = 0b11 is the reserved request, which is
answered like any other (R74, R162), and no other bits are reserved. -/
def decodeReq (b : Bundle) : Instr :=
  match (opField b).toNat with
  | 0 => .probe (lenField b) (suppliedBytes b)
  | 1 => .decode (lenField b) (suppliedBytes b)
  | 2 => .encode (valueField b)
  | _ => .rsvd

/-! ### A bundle as bytes

The spec gives the bundle as a 142-bit port, and its vectors write it as a 144-bit number whose top two bits are 0
(95_test_vectors.md).  DESIGN CHOICE (notes/assumptions/1.md): as bytes it is 18 bytes, least significant first. -/

/-- Bytes that hold one bundle. -/
abbrev bundleBytes : Nat := 18

/-- The number whose bytes these are, least significant first. -/
def leNat : List Byte → Nat
  | [] => 0
  | b :: rest => b.toNat + 256 * leNat rest

/-- The `n` low bytes of a number, least significant first. -/
def leBytes : Nat → Nat → List Byte
  | 0, _ => []
  | n + 1, v => BitVec.ofNat 8 v :: leBytes n (v / 256)

/-- Why bytes are not a request bundle. -/
inductive DecodeError where
  /-- Fewer than 18 bytes. -/
  | tooShort
  /-- Bits 143:142, which no port has, are not 0. -/
  | paddingNotZero
  deriving DecidableEq, Repr

/-- What the byte decoder answers: a request and the bytes after it, or a rejection by name. -/
inductive Decoded where
  | ok (i : Instr) (rest : List Byte)
  | rejected (why : DecodeError)
  deriving DecidableEq, Repr

/-- Decode the first 18 bytes of a list; total on any bytes. -/
def decode (bytes : List Byte) : Decoded :=
  if bytes.length < bundleBytes then .rejected .tooShort
  else if leNat (bytes.take bundleBytes) < 2 ^ 142 then
    .ok (decodeReq (BitVec.ofNat 142 (leNat (bytes.take bundleBytes)))) (bytes.drop bundleBytes)
  else .rejected .paddingNotZero

/-- The request this decoder reads from the bits `w` of an opcode-table row of `nbits` bits (bit 0 is `op[0]`); every
bit above `nbits` is 0. -/
def decodeTableWord (nbits w : Nat) : Option Instr :=
  if w % 2 ^ nbits < 2 ^ 144 then
    match decode (leBytes bundleBytes (w % 2 ^ nbits)) with
    | .ok i _ => some i
    | .rejected _ => none
  else none

/-! ### Encoding a request -/

/-- The request bundle of a request.  Lanes past the byte list and the fields the operation ignores are written as
zero (R75). -/
def encode : Instr → Bundle
  | .probe inLen bytes => pack 0b00#2 inLen (Machine.laneField bytes) 0
  | .decode inLen bytes => pack 0b01#2 inLen (Machine.laneField bytes) 0
  | .encode inValue => pack 0b10#2 0 0 inValue
  | .rsvd => pack 0b11#2 0 0 0

/-- The 18 bytes of a bundle. -/
def bytesOfBundle (b : Bundle) : List Byte := leBytes bundleBytes b.toNat

end Sys2Proof
end

