-- ==== Sys2Proof/Config.lean ====
section
/-! DEFINITION. What an implementation of the block fixes and the spec leaves open: `LATENCY`, `MAX_OUTSTANDING` and
the block's own timing choices (spec/00_scope.md R9; spec/20_memory.md R50, R52; spec/70_reset_and_hazards.md R182,
R187, R188).  No result value depends on any of them. -/

namespace Sys2Proof

/-- The parameters a model takes as an argument (R9), with the free timing choices of the block.

* `latency` is `LATENCY`, `maxOutstanding` is `MAX_OUTSTANDING`; both are at least 1 (`Timing.Legal`).
* `readyDelay c` is how many cycles the block lets pass, from clock `c`, before it drives `req_ready` = 1 again.
  The spec says only that the number is finite (R52, R182), which is what a natural number says.
* `responseDelay c` chooses, among the delays R50 allows, when the response of the request that becomes the oldest at
  clock `c` goes on offer: `responseDelay c % latency` cycles later than the earliest cycle R50 allows. -/
structure Timing where
  latency : Nat
  maxOutstanding : Nat
  readyDelay : Nat → Nat
  responseDelay : Nat → Nat

/-- The constraint column of R9: both parameters are at least 1. -/
def Timing.Legal (t : Timing) : Prop := 1 ≤ t.latency ∧ 1 ≤ t.maxOutstanding

/-- `LATENCY` less one: open, so no value of it is known here (R9; 92_eei_decisions.md D11). -/
opaque Config.latencyLessOne : Nat

/-- `MAX_OUTSTANDING` less one: open (R9; D11). -/
opaque Config.maxOutstandingLessOne : Nat

/-- Free value: see `Timing.readyDelay`. -/
opaque Config.readyDelay : Nat → Nat

/-- Free value: see `Timing.responseDelay`. -/
opaque Config.responseDelay : Nat → Nat

/-- The machine's parameters.  Nothing is known of them but that they are legal. -/
def Config.timing : Timing where
  latency := Config.latencyLessOne + 1
  maxOutstanding := Config.maxOutstandingLessOne + 1
  readyDelay := Config.readyDelay
  responseDelay := Config.responseDelay

end Sys2Proof
end

