-- ==== Sys2Proof/Machine/State.lean ====
section
/-! DEFINITION. The state of the block and of the host at its ports, and the state after reset (spec/10_state.md R20 to
R29; spec/20_memory.md R53; spec/30_encoding.md R60, R62, R68; spec/70_reset_and_hazards.md R180 to R185, R190). -/

namespace Sys2Proof.Machine

/-- The status of a response (R68).  The fourth code, 0b11, is reserved and never produced, so it has no name here. -/
inductive Status where
  | ok
  | insufficientInput
  | illegalOp
  deriving DecidableEq, Repr

/-- The response bundle by its fields (R62).  `State.rspPort` gives its 142 bits. -/
structure Response where
  status : Status
  outLen : BitVec 4
  outBytes : LaneField
  outValue : Word
  deriving DecidableEq, Repr

/-- What the host does in one clock cycle (R53, R60): the level of `rst`, the request it now wants to issue, and the
level of `rsp_ready`. -/
structure HostMove where
  rst : Bool
  present : Option Bundle
  rspReady : Bool
  deriving DecidableEq, Repr

/-- The state.  The block has no registers, no program counter, no flags, no control registers and no memory (R20 to
R25), and its working state does not outlive an operation (R26), so what stands here is the interface state of R27,
the pins the host drives (R60), the host's own plan and record, and the model's three timing counters. -/
structure State where
  /-- `in_reset` (R27): the level of the pin `rst`. -/
  inReset : Bool
  /-- `pending` (R27): accepted requests whose responses the host has not taken, oldest first, as the 142 bits the
  block sampled (R49). -/
  pending : List Bundle
  /-- `rsp_valid` and `rsp` (R27) together: `none` is `rsp_valid` = 0, when `rsp` has no value (R29, D23: "A model
  gives them no value"); `some r` is `rsp_valid` = 1 with `rsp` = r. -/
  offer : Option Response
  /-- The pins `req_valid` and `req` (R60): `none` is `req_valid` = 0. -/
  reqIn : Option Bundle
  /-- Requests the host wants to issue and, holding one at the pins (R185), cannot drive yet, oldest first. -/
  queued : List Bundle
  /-- The pin `rsp_ready` (R60). -/
  rspReady : Bool
  /-- The host's moves to come, one a clock cycle (R53).  Past its end the host idles (`HostMove.idle`). -/
  script : List HostMove
  /-- The responses the host has received, in order: the observation of a run (R190). -/
  received : List Response
  /-- Cycles until the block is next willing to drive `req_ready` = 1 (R52, R182). -/
  readyWait : Nat
  /-- Edges until the oldest request's response goes on offer (R50). -/
  rspWait : Nat
  /-- Clock edges counted, only to ask for a fresh free value (not a counter of the block: R171). -/
  clock : Nat
  deriving DecidableEq, Repr

/-- A fault would stop the machine.  There is none: R189 says `Exec` is total and no step of the block is stuck or
faults; the two error conditions of R160 are values of `Status` in a response.  Safe: nothing stops. -/
inductive Fault where
  deriving DecidableEq, Repr

/-- A refusal is a request without a meaning. -/
inductive Refusal where
  /-- Raised by an arm of `exec` whose instruction has no meaning yet; every arm has one, so nothing raises it.
  Safe: it would stop the machine. -/
  | notModelled (mnemonic : String)
  deriving DecidableEq, Repr

/-- The state right after reset (R29, R182): `Reset` and then `Release` of R189.  Nothing is pending, nothing is on
offer, and the host has neither planned nor received anything.  The counters are the model's own
(notes/assumptions/5.md). -/
def State.reset : State where
  inReset := false
  pending := []
  offer := none
  reqIn := none
  queued := []
  rspReady := false
  script := []
  received := []
  readyWait := 1
  rspWait := 0
  clock := 0

end Sys2Proof.Machine
end

