-- ==== Sys2Proof/Machine/Flags.lean ====
section
/-! DEFINITION. The status of a response and its bits: the only condition indication of the block (spec/10_state.md R22;
spec/30_encoding.md R62, R68). -/

namespace Sys2Proof.Machine

/-- The code of a status (R68). -/
def Status.code : Status → BitVec 2
  | .ok => 0b00#2
  | .insufficientInput => 0b01#2
  | .illegalOp => 0b10#2

/-- The status a code names; 0b11 is reserved and refused (R68; 93_implementation_defined.md I10). -/
def Status.ofCode (c : BitVec 2) : Option Status :=
  match c.toNat with
  | 0 => some .ok
  | 1 => some .insufficientInput
  | 2 => some .illegalOp
  | _ => none

/-- The 142 bits of a response on the port `rsp` (R62). -/
def Response.bits (r : Response) : Bundle := pack r.status.code r.outLen r.outBytes r.outValue

/-- The response that 142 bits stand for, refused when `status` is the reserved code. -/
def Response.ofBits (b : Bundle) : Option Response :=
  match Status.ofCode (opField b) with
  | some st => some ⟨st, lenField b, lanesField b, valueField b⟩
  | none => none

end Sys2Proof.Machine
end

