-- ==== Sys2Proof/Machine/Ops.lean ====
section
/-! DEFINITION. The shared operations: building and offering a response, raising an error, and the moves of the request
and response channel (spec/00_scope.md R11; spec/20_memory.md R49, R50, R53; spec/30_encoding.md R69;
spec/60_exceptions.md R163; spec/70_reset_and_hazards.md R180, R185). -/

namespace Sys2Proof.Machine

/-! ### Responses -/

/-- `respond(OK, len, bytes, value)` of R11: the lanes past `bytes` are zero (R69). -/
def okResponse (len : Nat) (bytes : List Byte) (value : Word) : Response :=
  ⟨.ok, BitVec.ofNat 4 len, laneField bytes, value⟩

/-- The error response of R163: the code, and zero in every other field. -/
def errorResponse (code : Status) : Response := ⟨code, 0, 0, 0⟩

/-- Put a response on offer: `rsp_valid` = 1 with `rsp` = r (R50).  Nothing else of the state is touched (R47). -/
def State.respond (s : State) (r : Response) : State := { s with offer := some r }

/-- Taking an exception.  The block has no trap: to raise an error is to give the error response, with no other effect
(R11, R163, R167).  Nothing is saved, so there is no return from it (R168). -/
def State.raise (s : State) (code : Status) : State := s.respond (errorResponse code)

/-! ### The output pins (R60) -/

/-- `req_ready`: 0 while `rst` = 1 (R180) and whenever `pending` holds `MAX_OUTSTANDING` requests (R49); otherwise 1
once the block's own wait is over (R52). -/
def State.reqReady (t : Timing) (s : State) : Bool :=
  !s.inReset && decide (s.pending.length < t.maxOutstanding) && s.readyWait == 0

/-- `rsp_valid`: 0 while `rst` = 1 (R180). -/
def State.rspValid (s : State) : Bool := !s.inReset && s.offer.isSome

/-- The bits on `rsp`; no value while `rsp_valid` = 0 (R29). -/
def State.rspPort (s : State) : Option Bundle :=
  if s.inReset then none else s.offer.map Response.bits

/-! ### The host -/

/-- A host with no move left: it leaves `rst` at 0, starts no request, and takes every response, which is its duty
(R53; notes/assumptions/4.md). -/
def HostMove.idle : HostMove := ⟨false, none, true⟩

/-- The move of the coming cycle. -/
def State.nextMove (s : State) : HostMove := s.script.headD HostMove.idle

/-- The requests the host wants to issue in the coming cycle, besides one it already drives. -/
def State.wanted (s : State) : List Bundle := s.queued ++ s.nextMove.present.toList

/-- The host drives its pins for one cycle.  A request it drives that has not transferred it keeps driving, unchanged:
the hold rule of R185 leaves it no other move, and what it wants to issue waits.  With `rst` = 1 it is free of that
duty: it starts afresh with the request of this cycle. -/
def State.hostDrives (s : State) : State :=
  { s with
    inReset := s.nextMove.rst
    reqIn := if s.nextMove.rst then s.nextMove.present else s.reqIn <|> s.wanted.head?
    queued := if s.nextMove.rst then [] else if s.reqIn.isSome then s.wanted else s.wanted.tail
    rspReady := s.nextMove.rspReady
    script := s.script.tail }

/-! ### The channel at a rising edge -/

/-- The request that transfers at this edge (R49): `rst` = 0, `req_valid` = 1 and `req_ready` = 1. -/
def State.transferIn (t : Timing) (s : State) : Option Bundle :=
  match s.reqIn with
  | none => none
  | some b => if s.reqReady t then some b else none

/-- The response that transfers at this edge (R50): `rst` = 0, `rsp_valid` = 1 and `rsp_ready` = 1. -/
def State.transferOut (s : State) : Option Response :=
  if s.inReset then none else if s.rspReady then s.offer else none

/-- The delay, within what R50 allows, of the response of the request that becomes the oldest now. -/
def State.freshRspWait (t : Timing) (s : State) : Nat := t.responseDelay s.clock % t.latency

/-- A clock edge passes for the timing counters: the wait for `req_ready` runs down, and starts again with a free
length once it is over (R52). -/
def State.tick (t : Timing) (s : State) : State :=
  { s with
    readyWait := if s.readyWait = 0 then t.readyDelay s.clock else s.readyWait - 1
    clock := s.clock + 1 }

/-- An edge at which no response goes on offer: the wait for one runs down (R50). -/
def State.countDown (s : State) : State := { s with rspWait := s.rspWait - 1 }

/-- The host takes a response: the head of `pending` is removed and `rsp_valid` falls (R50); the next request's
response may take its time from here. -/
def State.take (t : Timing) (s : State) (r : Response) : State :=
  { s with
    pending := s.pending.tail
    offer := none
    received := s.received ++ [r]
    rspWait := s.freshRspWait t }

/-- The block accepts a request: it goes to the back of `pending` (R49), and the host may change `req` at once (R185).
If it is the oldest, its response's time runs from here (R50). -/
def State.accept (t : Timing) (s : State) (b : Bundle) : State :=
  { s with
    pending := s.pending ++ [b]
    reqIn := none
    rspWait := if s.pending.isEmpty then s.freshRspWait t else s.rspWait }

/-- A rising edge with `rst` = 1: everything in flight is discarded and never answered (R180). -/
def State.clear (s : State) : State := { s with pending := [], offer := none }

/-- `take` when a response transfers, nothing otherwise. -/
def State.takeIf (t : Timing) (s : State) : Option Response → State
  | none => s
  | some r => s.take t r

/-- `accept` when a request transfers, nothing otherwise. -/
def State.acceptIf (t : Timing) (s : State) : Option Bundle → State
  | none => s
  | some b => s.accept t b

end Sys2Proof.Machine
end

