-- ==== Sys2Proof/Machine/Decoder.lean ====
section
/-! DEFINITION. DECODE, shift-and-accumulate with a continuation-bit scan (spec/41_decoder.md R110 to R120). -/

namespace Sys2Proof.Machine

/-- The loop of R111 from byte index `i` with accumulator `acc` over the supplied bytes that are left: the bytes
consumed and the accumulator, or `none` where the scan would read past them.  Byte 8 gives all its bits. -/
def decodeScan : Nat → Word → List Byte → Option (Nat × Word)
  | _, _, [] => none
  | i, acc, b :: rest =>
    if i = 8 then some (9, (acc <<< 8) ||| b.zeroExtend 64)
    else if highBit b then decodeScan (i + 1) ((acc <<< 7) ||| (payload b).zeroExtend 64) rest
    else some (i + 1, (acc <<< 7) ||| (payload b).zeroExtend 64)

/-- The response of DECODE (R111, R115). -/
def decodeResult (inLen : BitVec 4) (bytes : List Byte) : Response :=
  match decodeScan 0 0 (supplied inLen bytes) with
  | some (n, acc) => okResponse n [] acc
  | none => errorResponse .insufficientInput

/-- DECODE (R111). -/
def execDecode (inLen : BitVec 4) (bytes : List Byte) (s : State) : Host.Outcome State Fault Refusal :=
  .next (s.respond (decodeResult inLen bytes))

end Sys2Proof.Machine
end

