-- ==== Sys2Proof/Machine/Encoder.lean ====
section
/-! DEFINITION. ENCODE, bit-packing with continuation-bit generation (spec/42_encoder.md R130 to R140). -/

namespace Sys2Proof.Machine

/-- The right shift of the working value.  The source leaves its kind open and no output shows it (R136): `true` is
the arithmetic shift, `false` the logical one. -/
def shiftDown (arith : Bool) (w : Word) (k : Nat) : Word :=
  if arith then w.sshiftRight k else w >>> k

/-- The 9-byte form is used exactly for patterns above the threshold (R131). -/
def needsNine (u : Word) : Bool := decide (force9Threshold < u)

/-- A byte as it is put in front of `buf`: it gets the continuation bit unless it is the last (R132, R133). -/
def flagged (buf : List Byte) (chunk : BitVec 7) : Byte :=
  if buf.isEmpty then chunk.zeroExtend 8 else chunk.zeroExtend 8 ||| contBit

/-- The chunk loop of R132, at most `fuel` chunks.  The early stop is tested in the form of 1 to 8 bytes only
(90_conflicts.md C1). -/
def packLoop (arith nine : Bool) : Nat → Word → List Byte → List Byte
  | 0, _, buf => buf
  | fuel + 1, w, buf =>
    if !nine && shiftDown arith w 7 == 0 then flagged buf (w.extractLsb' 0 7) :: buf
    else packLoop arith nine fuel (shiftDown arith w 7) (flagged buf (w.extractLsb' 0 7) :: buf)

/-- The bytes ENCODE produces, in wire order, with either kind of shift (R132, R136). -/
def encodeBytesWith (arith : Bool) (u : Word) : List Byte :=
  if needsNine u then packLoop arith true 8 (shiftDown arith u 8) [u.extractLsb' 0 8]
  else packLoop arith false 8 u []

/-- The bytes ENCODE produces (R132, which shifts logically). -/
def encodeBytes (u : Word) : List Byte := encodeBytesWith false u

/-- The response of ENCODE (R132, R138). -/
def encodeResult (u : Word) : Response := okResponse (encodeBytes u).length (encodeBytes u) 0

/-- ENCODE (R132). -/
def execEncode (u : Word) (s : State) : Host.Outcome State Fault Refusal :=
  .next (s.respond (encodeResult u))

end Sys2Proof.Machine
end

