-- ==== Sys2Proof/Machine/Probe.lean ====
section
/-! DEFINITION. PROBE, the high-bit scan (spec/40_length_probe.md R100 to R106). -/

namespace Sys2Proof.Machine

/-- The scan of R101 from byte index `i` over the supplied bytes that are left: the length of the varint, or `none`
where the scan would read past them.  Byte 8 ends the scan unexamined. -/
def probeScan : Nat → List Byte → Option Nat
  | _, [] => none
  | i, b :: rest =>
    if i = 8 then some 9
    else if highBit b then probeScan (i + 1) rest
    else some (i + 1)

/-- The response of PROBE (R101, R102). -/
def probeResult (inLen : BitVec 4) (bytes : List Byte) : Response :=
  match probeScan 0 (supplied inLen bytes) with
  | some n => okResponse n [] 0
  | none => errorResponse .insufficientInput

/-- PROBE (R101). -/
def execProbe (inLen : BitVec 4) (bytes : List Byte) (s : State) : Host.Outcome State Fault Refusal :=
  .next (s.respond (probeResult inLen bytes))

end Sys2Proof.Machine
end

