-- ==== Sys2Proof/Machine/Reserved.lean ====
section
/-! DEFINITION. The reserved op value 0b11, answered with `ILLEGAL_OP` (spec/60_exceptions.md R162, R163). -/

namespace Sys2Proof.Machine

/-- The response to a reserved request. -/
def rsvdResult : Response := errorResponse .illegalOp

/-- RSVD: no operation is performed, and the error response is given (R162). -/
def execRsvd (s : State) : Host.Outcome State Fault Refusal :=
  .next (s.raise .illegalOp)

end Sys2Proof.Machine
end

