-- ==== Sys2Proof/Machine/Dispatch.lean ====
section
/-! DEFINITION. The operation select: one arm for each row of spec/opcode_table.json (spec/10_state.md R28). -/

namespace Sys2Proof.Machine

/-- The unit an op selects computes the response of the request and offers it. -/
def exec (i : Instr) (s : State) : Host.Outcome State Fault Refusal :=
  match i with
  | .probe inLen bytes => Sys2Proof.Machine.execProbe inLen bytes s
  | .decode inLen bytes => Sys2Proof.Machine.execDecode inLen bytes s
  | .encode inValue => Sys2Proof.Machine.execEncode inValue s
  | .rsvd => Sys2Proof.Machine.execRsvd s

end Sys2Proof.Machine
end

