-- ==== Sys2Proof/Machine/Channel.lean ====
section
/-! DEFINITION. One clock cycle of the block: the host drives its pins, then a rising edge of `clk` moves the request
and response channel (spec/20_memory.md R49 to R53; spec/70_reset_and_hazards.md R180 to R187). -/

namespace Sys2Proof.Machine

/-- The request whose response is due to go on offer: the oldest, when none is on offer and its wait is over (R50). -/
def State.due (s : State) : Option Bundle :=
  match s.offer, s.pending, s.rspWait with
  | none, b :: _, 0 => some b
  | _, _, _ => none

/-- The transfers of a rising edge with `rst` = 0.  Both are decided by the pins before the edge; a response leaves
`pending` before a request enters it. -/
def State.transfers (t : Timing) (s : State) : State :=
  ((s.tick t).takeIf t s.transferOut).acceptIf t (s.transferIn t)

/-- A rising edge of `clk`. -/
def clockEdge (t : Timing) (s : State) : Host.Outcome State Fault Refusal :=
  if s.inReset then .next (s.tick t).clear
  else
    match (s.transfers t).due with
    | some b => exec (decodeReq b) (s.transfers t)
    | none => .next (s.transfers t).countDown

/-- One clock cycle, for any parameters of the block. -/
def cycle (t : Timing) (s : State) : Host.Outcome State Fault Refusal := clockEdge t s.hostDrives

/-- Put a request where the next edge takes its request from: alone in `pending`, its wait over, and the host idle in
the coming cycle. -/
def State.withNextRequest (s : State) (b : Bundle) : State :=
  { s with
    pending := [b]
    offer := none
    rspWait := 0
    script := HostMove.idle :: s.script }

end Sys2Proof.Machine
end

