-- ==== Sys2Proof/Machine/Step.lean ====
section
/-! DEFINITION. The step: one clock cycle under the machine's own parameters (spec/20_memory.md R49, R50). -/

namespace Sys2Proof.Machine

/-- One step is one clock cycle. -/
def step (s : State) : Host.Outcome State Fault Refusal := cycle Config.timing s

/-- `s` with the request whose bits are `w` (the bits above `nbits` zero) as the one the next step runs. -/
def State.withFetchWord (s : State) (nbits w : Nat) : State :=
  s.withNextRequest (BitVec.ofNat 142 (w % 2 ^ nbits))

end Sys2Proof.Machine
end

