-- ==== Sys2Proof/Machine/Assembler.lean ====
section
/-! DEFINITION. The text form of requests and responses of R75, as data: what a line of it says and the request bundle it
stands for (spec/30_encoding.md R75). -/

namespace Sys2Proof.Machine

/-- A request line of R75.  `len` is the optional `len=n`. -/
inductive Line where
  | probe (bytes : List Byte) (len : Option (BitVec 4))
  | decode (bytes : List Byte) (len : Option (BitVec 4))
  /-- `ENCODE v` with a decimal int64. -/
  | encodeInt (v : Int)
  /-- `ENCODE v` with a hex literal, read as the 64-bit pattern. -/
  | encodeHex (pattern : Word)
  | rsvd
  deriving DecidableEq, Repr

/-- `in_len` of a line: `len=n` where it is written, else `min(k+1, 15)` for bytes `b0` to `bk`. -/
def lineLen (bytes : List Byte) : Option (BitVec 4) → BitVec 4
  | some n => n
  | none => BitVec.ofNat 4 (min bytes.length 15)

/-- The request bundle of a line.  Bytes after the ninth fill no lane; unlisted lanes and unused fields are zero. -/
def Line.assemble : Line → Bundle
  | .probe bytes len => pack 0b00#2 (lineLen bytes len) (laneField bytes) 0
  | .decode bytes len => pack 0b01#2 (lineLen bytes len) (laneField bytes) 0
  | .encodeInt v => pack 0b10#2 0 0 (u64 v)
  | .encodeHex pattern => pack 0b10#2 0 0 pattern
  | .rsvd => pack 0b11#2 0 0 0

/-- A response as R75 writes it. -/
inductive Printed where
  /-- `OK len=L` -/
  | okLen (len : Nat)
  /-- `OK len=L value=V` -/
  | okValue (len : Nat) (value : Int)
  /-- `OK len=L bytes=[...]` -/
  | okBytes (len : Nat) (bytes : List Byte)
  | insufficientInput
  | illegalOp
  deriving DecidableEq, Repr

/-- How R75 writes the response to a request. -/
def Response.printed (i : Instr) (r : Response) : Printed :=
  match r.status, i with
  | .insufficientInput, _ => .insufficientInput
  | .illegalOp, _ => .illegalOp
  | .ok, .decode _ _ => .okValue r.outLen.toNat (s64 r.outValue)
  | .ok, .encode _ => .okBytes r.outLen.toNat ((List.range r.outLen.toNat).map (lane r.outBytes))
  | .ok, _ => .okLen r.outLen.toNat

end Sys2Proof.Machine
end

