-- ==== Sys2Proof/Machine/Format.lean ====
section
/-! DEFINITION. The varint wire format in the spec's own terms, apart from the loops that read and write it: the terminal
byte, the value of a varint, what a varint is (spec/30_encoding.md R70 to R73; spec/00_scope.md R10). -/

namespace Sys2Proof.Machine

/-- The terminal index `T` of R71: the least `i` from 0 to 7 whose byte has bit 7 clear, otherwise 8. -/
def terminalIndex (bytes : List Byte) : Nat :=
  match (bytes.take 8).findIdx? (fun b => !highBit b) with
  | some i => i
  | none => 8

/-- The payload chunks of a byte list, seven bits each, concatenated most significant first (R72): an exact natural
number, which no width cuts off. -/
def chunkSum : List Byte → Nat
  | [] => 0
  | b :: rest => (payload b).toNat * 2 ^ (7 * rest.length) + chunkSum rest

/-- The pattern of the varint a byte list begins with, in the 9-byte form with the raw last byte (R72). -/
def varintPattern (bytes : List Byte) : Nat :=
  if terminalIndex bytes ≤ 7 then chunkSum (bytes.take (terminalIndex bytes + 1))
  else chunkSum (bytes.take 8) * 2 ^ 8 + (bytes.getD 8 0).toNat

/-- A byte list is one whole varint (R70): 1 to 9 bytes, bit 7 set on every byte but the last, and clear on the last
unless there are nine. -/
def IsVarint (bytes : List Byte) : Prop :=
  1 ≤ bytes.length ∧ bytes.length ≤ maxLen ∧
  (∀ k, k + 1 < bytes.length → highBit (bytes.getD k 0) = true) ∧
  (bytes.length < maxLen → highBit (bytes.getD (bytes.length - 1) 0) = false)

/-- `bitlen(u)` (R10): the number of binary digits, with `bitlen(0) = 0`. -/
def bitlen (u : Nat) : Nat := u.size

/-- `ceil_div(a, b)` (R10). -/
def ceilDiv (a b : Nat) : Nat := (a + b - 1) / b

end Sys2Proof.Machine
end

