-- ==== Sys2Proof/Machine/Transaction.lean ====
section
/-! DEFINITION. The response function `Exec` of R28 and the transaction-level machine of R189, which the clock cycles
refine (spec/10_state.md R28; spec/70_reset_and_hazards.md R189, R190). -/

namespace Sys2Proof.Machine

/-- The response of a request: a function of the request alone (R28). -/
def answer : Instr → Response
  | .probe inLen bytes => probeResult inLen bytes
  | .decode inLen bytes => decodeResult inLen bytes
  | .encode inValue => encodeResult inValue
  | .rsvd => rsvdResult

/-- `Exec(r)` of R28, for a request bundle. -/
def Exec (b : Bundle) : Response := answer (decodeReq b)

/-- The state of R189, with the responses the host has received (R190). -/
structure Transactions where
  pending : List Bundle
  inReset : Bool
  received : List Response
  deriving DecidableEq, Repr

/-- The steps of R189. -/
inductive Move where
  | reset
  | release
  | accept (b : Bundle)
  | respond
  deriving DecidableEq, Repr

/-- One step of R189 with `MAX_OUTSTANDING` = max: its effect, or `none` where it is not enabled. -/
def Move.apply (max : Nat) (m : Move) (x : Transactions) : Option Transactions :=
  match m with
  | .reset => some { x with pending := [], inReset := true }
  | .release => if x.inReset then some { x with inReset := false } else none
  | .accept b =>
    if !x.inReset && decide (x.pending.length < max) then some { x with pending := x.pending ++ [b] } else none
  | .respond =>
    match x.inReset, x.pending with
    | false, b :: rest => some { x with pending := rest, received := x.received ++ [Exec b] }
    | _, _ => none

/-- Steps of R189 one after another; `none` as soon as one is not enabled. -/
def applyMoves (max : Nat) : List Move → Transactions → Option Transactions
  | [], x => some x
  | m :: rest, x =>
    match m.apply max x with
    | some y => applyMoves max rest y
    | none => none

/-- What R189 sees of a state. -/
def State.transactions (s : State) : Transactions := ⟨s.pending, s.inReset, s.received⟩

/-- The steps of R189 that the coming clock cycle takes. -/
def State.moves (t : Timing) (s : State) : List Move :=
  if s.hostDrives.inReset then [.reset]
  else
    (if s.inReset then [.release] else []) ++
    (s.hostDrives.transferOut.toList.map fun _ => .respond) ++
    ((s.hostDrives.transferIn t).toList.map .accept)

end Sys2Proof.Machine
end

