-- ==== Sys2Proof/Safety.lean ====
section
/-! DEFINITION. What a good state and a good run are, in the terms the statements use (spec/10_state.md R27, R29;
spec/20_memory.md R49 to R52; spec/70_reset_and_hazards.md R180, R190). -/

namespace Sys2Proof.Machine

/-- The invariant of the interface state. -/
structure State.Consistent (t : Timing) (s : State) : Prop where
  /-- `pending` has at most `MAX_OUTSTANDING` requests (R27). -/
  capacity : s.pending.length ≤ t.maxOutstanding
  /-- A response on offer is `Exec(head(pending))` (R27, R50). -/
  offered : ∀ r, s.offer = some r → ∃ b, s.pending.head? = some b ∧ r = Exec b
  /-- In reset nothing is pending and nothing is on offer (R29, R180). -/
  quiet : s.inReset = true → s.pending = [] ∧ s.offer = none
  /-- A response that is awaited is due within `LATENCY` (R50). -/
  timely : s.offer = none → s.pending ≠ [] → s.rspWait < t.latency
  /-- Every response the host received is the response of some request (R28, R51). -/
  answers : ∀ r ∈ s.received, ∃ b, r = Exec b

/-- The host will not assert `rst` again. -/
def State.NoMoreResets (s : State) : Prop := ∀ m ∈ s.script, m.rst = false

/-- The end of a run (R190): the host has issued its last request, `pending` is empty, and so every response has been
received. -/
def State.RunOver (s : State) : Prop :=
  s.pending = [] ∧ s.reqIn = none ∧ s.queued = [] ∧ ∀ m ∈ s.script, m.present = none

/-- The requests the host has still to issue, in order: the one it drives, those that wait, those of its coming moves. -/
def State.planned (s : State) : List Bundle :=
  s.reqIn.toList ++ s.queued ++ s.script.filterMap (·.present)

/-- The request that transfers in the coming cycle, if one does (R49). -/
def State.accepts (t : Timing) (s : State) : Option Bundle := s.hostDrives.transferIn t

/-- The response that transfers in the coming cycle, if one does (R50). -/
def State.delivers (s : State) : Option Response := s.hostDrives.transferOut

/-- `bytes` is one varint that DECODE reads, whole, as the value `v` (R70, R111). -/
def DecodesTo (bytes : List Byte) (v : Word) : Prop :=
  IsVarint bytes ∧ ∀ s : State, exec (.decode (BitVec.ofNat 4 bytes.length) bytes) s =
    .next { s with offer := some ⟨.ok, BitVec.ofNat 4 bytes.length, 0, v⟩ }

/-- `n` clock cycles under the parameters `t` (R9).  `Sys2Proof.core.run` is this with the machine's own parameters. -/
def runCycles (t : Timing) (n : Nat) (s : State) : Host.Outcome State Fault Refusal :=
  Host.Core.run { Sys2Proof.core with step := cycle t } n s

/-- The requests accepted in the coming `n` cycles, in the order of acceptance. -/
def acceptedDuring (t : Timing) : Nat → State → List Bundle
  | 0, _ => []
  | n + 1, s =>
    (s.accepts t).toList ++
    match cycle t s with
    | .next s' => acceptedDuring t n s'
    | .fault _ => []
    | .refused _ => []

end Sys2Proof.Machine
end

