-- ==== Sys2Proof/Certificates/Slice0/Obligations.lean ====
section
/-! DEFINITION. The statements for the provers.  Each says which rule of spec/ it formalises, or which model choice it
rests on. -/

open Sys2Proof Sys2Proof.Machine

/-! ## Encoding -/

/-- R61, R63, R75: words written out bit by bit.  `DECODE [0x81, 0x00]` is R75's own example; the others are rows
V-P8, S-E3 and V-X2 of 95_test_vectors.md. -/
def Obligations.TableWordsDecode : Prop :=
  decodeTableWord 144 0x2049 = some (.decode 2#4 [0x81#8, 0x00#8]) ∧
  decodeTableWord 144 0x1FFFFFC8 = some (.probe 2#4 [0xFF#8, 0xFF#8]) ∧
  decodeTableWord 144 0x4040000000000000000002 = some (.encode 257#64) ∧
  decodeTableWord 144 0x3FFFFFFFFFFFFFFFC0000000000000000047 = some .rsvd

/-- R63 (with the field positions of R61 and the lane rule of R64, R65): `req[1:0]` selects the operation, and no other
bit takes part in that; every bundle is one of the four. -/
def Obligations.OpFieldSelectsOperation : Prop :=
  ∀ b : Bundle,
    (b.extractLsb' 0 2 = 0b00#2 → decodeReq b = .probe (b.extractLsb' 2 4)
      ((List.range (min (b.extractLsb' 2 4).toNat 9)).map fun i => b.extractLsb' (6 + 8 * i) 8)) ∧
    (b.extractLsb' 0 2 = 0b01#2 → decodeReq b = .decode (b.extractLsb' 2 4)
      ((List.range (min (b.extractLsb' 2 4).toNat 9)).map fun i => b.extractLsb' (6 + 8 * i) 8)) ∧
    (b.extractLsb' 0 2 = 0b10#2 → decodeReq b = .encode (b.extractLsb' 78 64)) ∧
    (b.extractLsb' 0 2 = 0b11#2 → decodeReq b = .rsvd)

/-- Decoding the encoded bundle of a well-formed request gives it back, whatever its operands. -/
def Obligations.DecodeOfEncodeIsIdentity : Prop :=
  ∀ i : Instr, i.wellFormed = true → decodeReq (encode i) = i

/-- The same through the byte decoder, with any bytes after the request.  The byte layout is the model's choice
(notes/assumptions/1.md). -/
def Obligations.EncodedBytesDecode : Prop :=
  ∀ (i : Instr) (rest : List Byte), i.wellFormed = true →
    decode (bytesOfBundle (encode i) ++ rest) = .ok i rest

/-- The decoder answers a well-formed request for every bundle (R65, R74), and the byte decoder rejects by name exactly
what is no bundle: too few bytes, or bits above bit 141 (the byte layout is the model's choice,
notes/assumptions/1.md). -/
def Obligations.DecoderRejectsOnlyNonBundles : Prop :=
  (∀ b : Bundle, (decodeReq b).wellFormed = true) ∧
  (∀ bytes : List Byte, decode bytes = .rejected .tooShort ↔ bytes.length < 18) ∧
  (∀ bytes : List Byte, decode bytes = .rejected .paddingNotZero ↔
    18 ≤ bytes.length ∧ 2 ^ 142 ≤ leNat (bytes.take 18))

/-- R67: the fields an operation ignores may hold any bits and never change the response.  Two bundles with the same
`op` get the same response if they agree on `in_len` and the lanes below `n_avail` (PROBE, DECODE), on `in_value`
(ENCODE), or at all (the reserved op). -/
def Obligations.IgnoredFieldsNeverChangeResponse : Prop :=
  ∀ b c : Bundle, opField b = opField c →
    ((opField b = 0b00#2 ∨ opField b = 0b01#2) → lenField b = lenField c →
      (∀ i, i < min (lenField b).toNat 9 → bundleLane b i = bundleLane c i) →
      ∀ s, exec (decodeReq b) s = exec (decodeReq c) s) ∧
    (opField b = 0b10#2 → valueField b = valueField c → ∀ s, exec (decodeReq b) s = exec (decodeReq c) s) ∧
    (opField b = 0b11#2 → ∀ s, exec (decodeReq b) s = exec (decodeReq c) s)

/-- R64: `in_len` 9 to 15 all mean "at least 9 bytes", and no operation can tell them apart. -/
def Obligations.LengthsNineToFifteenAreEqual : Prop :=
  ∀ b c : Bundle, opField b = opField c → 9 ≤ (lenField b).toNat → 9 ≤ (lenField c).toNat →
    lanesField b = lanesField c → valueField b = valueField c →
    ∀ s, exec (decodeReq b) s = exec (decodeReq c) s

/-- R62: where the fields of a response stand on the port. -/
def Obligations.ResponseFieldPositions : Prop :=
  ∀ r : Response,
    r.bits.extractLsb' 0 2 = r.status.code ∧
    r.bits.extractLsb' 2 4 = r.outLen ∧
    r.bits.extractLsb' 6 72 = r.outBytes ∧
    (∀ k, k < 9 → r.bits.extractLsb' (6 + 8 * k) 8 = lane r.outBytes k) ∧
    r.bits.extractLsb' 78 64 = r.outValue

/-- The 142 bits of a response read back as it, only its own bits do, and the bits that stand for no response are those
with the reserved status 0b11 (R68; 93_implementation_defined.md I10). -/
def Obligations.ResponseBitsReadBack : Prop :=
  ∀ (r : Response) (b : Bundle),
    Response.ofBits r.bits = some r ∧
    (Response.ofBits b = some r → r.bits = b) ∧
    (Response.ofBits b = none ↔ opField b = 0b11#2)

/-- R75: the request bundle of a line of text decodes to the request the line says: `in_len` is `len=n` or
`min(k+1, 15)`, the lanes are the listed bytes, bytes after the ninth fill no lane, and unlisted lanes are zero. -/
def Obligations.AssembledLinesDecode : Prop :=
  (∀ bytes len, decodeReq (Line.assemble (.probe bytes len)) =
    .probe (lineLen bytes len) ((List.range (min (lineLen bytes len).toNat 9)).map fun i => bytes.getD i 0)) ∧
  (∀ bytes len, decodeReq (Line.assemble (.decode bytes len)) =
    .decode (lineLen bytes len) ((List.range (min (lineLen bytes len).toNat 9)).map fun i => bytes.getD i 0)) ∧
  (∀ bytes : List Byte, (lineLen bytes none).toNat = min bytes.length 15) ∧
  (∀ v : Int, IsInt64 v → decodeReq (Line.assemble (.encodeInt v)) = .encode (u64 v)) ∧
  (∀ u : Word, decodeReq (Line.assemble (.encodeHex u)) = .encode u) ∧
  decodeReq (Line.assemble .rsvd) = .rsvd

/-! ## PROBE -/

/-- R101, R102: PROBE answers `OK` with the index of the terminal byte plus one, every other field zero, if that byte is
supplied, and `INSUFFICIENT_INPUT` with every other field zero if not.  Nothing else of the state changes. -/
def Obligations.ProbeGivesTerminalLength : Prop :=
  ∀ (n : BitVec 4) (bytes : List Byte) (s : State), bytes.length = nAvail n →
    exec (.probe n bytes) s = .next { s with
      offer := some (if terminalIndex bytes < bytes.length
        then ⟨.ok, BitVec.ofNat 4 (terminalIndex bytes + 1), 0, 0⟩
        else ⟨.insufficientInput, 0, 0, 0⟩) }

/-- R103: PROBE raises `INSUFFICIENT_INPUT` exactly when `n_avail < 9` and no supplied byte has bit 7 clear, and raises
nothing else. -/
def Obligations.ProbeFailsExactlyWithoutTerminal : Prop :=
  ∀ (n : BitVec 4) (bytes : List Byte) (s : State), bytes.length = nAvail n →
    ∃ r, exec (.probe n bytes) s = .next { s with offer := some r } ∧
      (r.status = .insufficientInput ↔ nAvail n < 9 ∧ ∀ i, i < nAvail n → highBit (bytes.getD i 0) = true) ∧
      (r.status ≠ .insufficientInput → r.status = .ok)

/-- R104: PROBE's result depends only on `n_avail` and on bit 7 of lanes 0 to `T`; lane 8 never matters. -/
def Obligations.ProbeSeesOnlyHighBits : Prop :=
  ∀ (n m : BitVec 4) (bytes other : List Byte), bytes.length = nAvail n → other.length = nAvail m →
    nAvail n = nAvail m →
    (∀ i, i < 8 → i ≤ terminalIndex bytes → i < nAvail n →
      highBit (bytes.getD i 0) = highBit (other.getD i 0)) →
    ∀ s, exec (.probe n bytes) s = exec (.probe m other) s

/-! ## DECODE -/

/-- R115, R118: DECODE answers `OK` with the bytes consumed and the concatenation of the payload chunks (eight bits of
the ninth byte), if the terminal byte is supplied, and the error response if not; nothing else of the state changes.
The concatenation is an exact number below 2^64: no bit is lost on the way (R112). -/
def Obligations.DecodeGivesVarintValue : Prop :=
  ∀ (n : BitVec 4) (bytes : List Byte) (s : State), bytes.length = nAvail n →
    (terminalIndex bytes < bytes.length → varintPattern bytes < 2 ^ 64) ∧
    exec (.decode n bytes) s = .next { s with
      offer := some (if terminalIndex bytes < bytes.length
        then ⟨.ok, BitVec.ofNat 4 (terminalIndex bytes + 1), 0, BitVec.ofNat 64 (varintPattern bytes)⟩
        else ⟨.insufficientInput, 0, 0, 0⟩) }

/-- R112: with bytes 0 to 7 flagged and nine bytes supplied, DECODE gives exactly the 64-bit pattern
`{b0[6:0], ..., b7[6:0], b8[7:0]}`: bits 7 to 0 are byte 8 whole, and bits `14+7k` down to `8+7k` the payload of byte
`7-k`. -/
def Obligations.DecodeNinthByteWhole : Prop :=
  ∀ (n : BitVec 4) (bytes : List Byte) (s : State), bytes.length = nAvail n → nAvail n = 9 →
    (∀ i, i < 8 → highBit (bytes.getD i 0) = true) →
    ∃ v : Word, exec (.decode n bytes) s = .next { s with offer := some ⟨.ok, 9#4, 0, v⟩ } ∧
      v.extractLsb' 0 8 = bytes.getD 8 0 ∧
      ∀ k, k < 8 → v.extractLsb' (8 + 7 * k) 7 = (bytes.getD (7 - k) 0).extractLsb' 0 7

/-- R114: a decode of length `L` up to 8 gives a value below `2^(7L)`, with bits 63 to 56 zero, so not negative. -/
def Obligations.ShortDecodeIsNonNegative : Prop :=
  ∀ (n : BitVec 4) (bytes : List Byte) (s : State), bytes.length = nAvail n →
    ∃ r, exec (.decode n bytes) s = .next { s with offer := some r } ∧
      (r.status = .ok → r.outLen.toNat ≤ 8 →
        r.outValue.toNat < 2 ^ (7 * r.outLen.toNat) ∧ r.outValue.extractLsb' 56 8 = 0 ∧ 0 ≤ s64 r.outValue)

/-- R116: DECODE raises `INSUFFICIENT_INPUT` under exactly the condition of R103, and nothing else, and then returns no
partial value. -/
def Obligations.DecodeFailsExactlyWithoutTerminal : Prop :=
  ∀ (n : BitVec 4) (bytes : List Byte) (s : State), bytes.length = nAvail n →
    ∃ r, exec (.decode n bytes) s = .next { s with offer := some r } ∧
      (r.status = .insufficientInput ↔ nAvail n < 9 ∧ ∀ i, i < nAvail n → highBit (bytes.getD i 0) = true) ∧
      (r.status ≠ .insufficientInput → r.status = .ok) ∧
      (r.status = .insufficientInput → r = ⟨.insufficientInput, 0, 0, 0⟩)

/-- 41_decoder.md R117: non-minimal input decodes.  A zero chunk in front of a varint of up to 7 bytes gives the same
value and one more byte consumed; eight zero chunks in front of a byte give that byte as the value. -/
def Obligations.DecodeAcceptsLeadingZeroChunks : Prop :=
  (∀ (n m : BitVec 4) (bytes : List Byte) (s : State), IsVarint bytes → bytes.length ≤ 7 →
    nAvail n = bytes.length → nAvail m = bytes.length + 1 →
    ∃ v : Word,
      exec (.decode n bytes) s =
        .next { s with offer := some ⟨.ok, BitVec.ofNat 4 bytes.length, 0, v⟩ } ∧
      exec (.decode m (0x80#8 :: bytes)) s =
        .next { s with offer := some ⟨.ok, BitVec.ofNat 4 (bytes.length + 1), 0, v⟩ }) ∧
  (∀ (m : BitVec 4) (b : Byte) (s : State), nAvail m = 9 →
    exec (.decode m (List.replicate 8 0x80#8 ++ [b])) s =
      .next { s with offer := some ⟨.ok, 9#4, 0, b.zeroExtend 64⟩ })

/-! ## ENCODE -/

/-- R134: the form of 1 to 8 bytes, in closed form. -/
def Obligations.EncodeShortForm : Prop :=
  ∀ (u : Word) (s : State), u ≤ 0x00FFFFFFFFFFFFFF#64 →
    ∃ (N : Nat) (r : Response), exec (.encode u) s = .next { s with offer := some r } ∧
      N = max 1 (ceilDiv (bitlen u.toNat) 7) ∧ 1 ≤ N ∧ N ≤ 8 ∧
      (u.toNat ≤ 127 → N = 1) ∧
      (∀ n, 2 ≤ n → n ≤ 8 → 2 ^ (7 * (n - 1)) ≤ u.toNat → u.toNat < 2 ^ (7 * n) → N = n) ∧
      r.status = .ok ∧ r.outLen = BitVec.ofNat 4 N ∧ r.outValue = 0 ∧
      (∀ k, k < N → lane r.outBytes k =
        (if k < N - 1 then 0x80#8 else 0x00#8) ||| (u.extractLsb' (7 * (N - 1 - k)) 7).zeroExtend 8) ∧
      (∀ k, N ≤ k → k < 9 → lane r.outBytes k = 0)

/-- R135: the 9-byte form, in closed form, with its two consequences for the leading bytes. -/
def Obligations.EncodeNineByteForm : Prop :=
  ∀ (u : Word) (s : State), 0x00FFFFFFFFFFFFFF#64 < u →
    ∃ r : Response, exec (.encode u) s = .next { s with offer := some r } ∧
      r.status = .ok ∧ r.outLen = 9#4 ∧ r.outValue = 0 ∧
      (∀ k, k < 8 → lane r.outBytes k = 0x80#8 ||| (u.extractLsb' (57 - 7 * k) 7).zeroExtend 8) ∧
      lane r.outBytes 8 = u.extractLsb' 0 8 ∧
      u.extractLsb' 56 8 ≠ 0 ∧
      (payload (lane r.outBytes 0) ≠ 0 ∨
        (lane r.outBytes 0 = 0x80#8 ∧ (lane r.outBytes 1).getLsbD 6 = true))

/-- R133, R137 (and 42_encoder.md R138): for every value ENCODE answers `OK` with one whole varint (bit 7 set on every
byte but the last, clear on the last below nine bytes; the ninth byte is the raw low byte of the value), left-aligned,
the lanes past it and `out_value` zero. -/
def Obligations.EncodeAlwaysGivesVarint : Prop :=
  ∀ (u : Word) (s : State), ∃ bytes : List Byte, IsVarint bytes ∧
    exec (.encode u) s =
      .next { s with offer := some ⟨.ok, BitVec.ofNat 4 bytes.length, laneField bytes, 0⟩ } ∧
    (∀ k, k < bytes.length → lane (laneField bytes) k = bytes.getD k 0) ∧
    (∀ k, bytes.length ≤ k → k < 9 → lane (laneField bytes) k = 0) ∧
    (bytes.length = 9 → bytes.getD 8 0 = u.extractLsb' 0 8 ∧ highBit (bytes.getD 8 0) = u.getLsbD 7)

/-- R154, R155: ENCODE gives nine bytes exactly for the patterns above the threshold, and so for every negative value. -/
def Obligations.NineBytesExactlyForLargePatterns : Prop :=
  ∀ (v : Int) (s : State), IsInt64 v →
    ∃ r : Response, exec (.encode (u64 v)) s = .next { s with offer := some r } ∧
      (r.outLen = 9#4 ↔ 0x00FFFFFFFFFFFFFF < (u64 v).toNat) ∧
      (v < 0 → r.outLen = 9#4)

/-- R136: the kind of right shift has no effect on any output: with either, ENCODE's response is the same. -/
def Obligations.KindOfShiftDoesNotMatter : Prop :=
  ∀ (arith : Bool) (u : Word) (s : State),
    exec (.encode u) s = .next { s with
      offer := some ⟨.ok, BitVec.ofNat 4 (encodeBytesWith arith u).length, laneField (encodeBytesWith arith u), 0⟩ }

/-! ## Laws between the operations -/

/-- R151: the two readings of a pattern are inverse, and the sign is bit 63. -/
def Obligations.ReinterpretationLaws : Prop :=
  (∀ v : Int, IsInt64 v → s64 (u64 v) = v) ∧
  (∀ u : Word, u64 (s64 u) = u ∧ IsInt64 (s64 u)) ∧
  (∀ u : Word, s64 u < 0 ↔ u.getLsbD 63 = true)

/-- R152: round trip.  Whatever the bytes after the encoding and whatever `in_len` from `N` on, DECODE of ENCODE's
output gives `OK` with the same length and value. -/
def Obligations.DecodeOfEncodeRoundTrip : Prop :=
  ∀ (v : Int) (s t : State), IsInt64 v →
    ∃ r : Response, exec (.encode (u64 v)) s = .next { s with offer := some r } ∧
      ∀ b : Bundle, opField b = 0b01#2 → r.outLen.toNat ≤ (lenField b).toNat →
        (∀ k, k < r.outLen.toNat → bundleLane b k = lane r.outBytes k) →
        ∃ w : Word, exec (decodeReq b) t = .next { t with offer := some ⟨.ok, r.outLen, 0, w⟩ } ∧ s64 w = v

/-- R153: ENCODE's length is the least length of a varint that decodes to the value, and up to the threshold that is
`max(1, ceil_div(bitlen, 7))`. -/
def Obligations.EncodeLengthIsMinimal : Prop :=
  ∀ (u : Word) (s : State), ∃ r : Response, exec (.encode u) s = .next { s with offer := some r } ∧
    (∃ bytes, bytes.length = r.outLen.toNat ∧ DecodesTo bytes u) ∧
    (∀ bytes, DecodesTo bytes u → r.outLen.toNat ≤ bytes.length) ∧
    (u ≤ 0x00FFFFFFFFFFFFFF#64 → r.outLen.toNat = max 1 (ceilDiv (bitlen u.toNat) 7)) ∧
    (0x00FFFFFFFFFFFFFF#64 < u → r.outLen.toNat = 9)

/-- R157: ENCODE after DECODE gives the bytes back exactly if they are minimal and otherwise fewer bytes; every value is
the value of exactly one output of ENCODE; ENCODE is injective; DECODE reaches every value and is not injective. -/
def Obligations.EncodeAfterDecode : Prop :=
  (∀ (bytes : List Byte) (v : Word) (s : State), DecodesTo bytes v →
    ∃ out : List Byte,
      exec (.encode v) s = .next { s with offer := some ⟨.ok, BitVec.ofNat 4 out.length, laneField out, 0⟩ } ∧
      out.length ≤ 9 ∧
      (out = bytes ↔ ∀ other, DecodesTo other v → bytes.length ≤ other.length) ∧
      (out ≠ bytes → out.length < bytes.length)) ∧
  (∀ (u w : Word) (s : State), exec (.encode u) s = exec (.encode w) s → u = w) ∧
  (∀ (v : Word) (s : State), ∃ out : List Byte, DecodesTo out v ∧
    exec (.encode v) s = .next { s with offer := some ⟨.ok, BitVec.ofNat 4 out.length, laneField out, 0⟩ } ∧
    ∀ (u : Word) (other : List Byte),
      exec (.encode u) s =
        .next { s with offer := some ⟨.ok, BitVec.ofNat 4 other.length, laneField other, 0⟩ } →
      DecodesTo other v → other = out) ∧
  (∃ (bytes other : List Byte) (v : Word), bytes ≠ other ∧ DecodesTo bytes v ∧ DecodesTo other v)

/-- R156: PROBE and DECODE of the same request agree on `status` and `out_len`, for every `in_len`. -/
def Obligations.ProbeAgreesWithDecode : Prop :=
  ∀ (b c : Bundle) (s t : State), opField b = 0b00#2 → opField c = 0b01#2 →
    lenField b = lenField c → lanesField b = lanesField c → valueField b = valueField c →
    ∃ r q : Response, exec (decodeReq b) s = .next { s with offer := some r } ∧
      exec (decodeReq c) t = .next { t with offer := some q } ∧
      r.status = q.status ∧ r.outLen = q.outLen

/-- R158: prefix law.  A PROBE or DECODE request whose terminal byte is supplied gets the same response as every request
that agrees with it on `op` and on lanes 0 to `T` and has `in_len > T`. -/
def Obligations.PrefixLaw : Prop :=
  ∀ (b c : Bundle), (opField b = 0b00#2 ∨ opField b = 0b01#2) → opField c = opField b →
    terminalIndex (suppliedBytes b) < nAvail (lenField b) →
    (∀ i, i ≤ terminalIndex (suppliedBytes b) → bundleLane c i = bundleLane b i) →
    terminalIndex (suppliedBytes b) < (lenField c).toNat →
    ∀ s, exec (decodeReq c) s = exec (decodeReq b) s

/-! ## Responses and errors -/

/-- R162, R163: the reserved op is answered `ILLEGAL_OP`, every other field zero, whatever the other bits, and nothing
else of the state changes. -/
def Obligations.ReservedOpIsAnsweredIllegal : Prop :=
  (∀ s : State, exec .rsvd s = .next { s with offer := some ⟨.illegalOp, 0, 0, 0⟩ }) ∧
  (∀ (b : Bundle) (s : State), opField b = 0b11#2 →
    exec (decodeReq b) s = .next { s with offer := some ⟨.illegalOp, 0, 0, 0⟩ })

/-- R69: which fields of a response are zero, and the range of `out_len` (R62). -/
def Obligations.UnusedResponseFieldsAreZero : Prop :=
  ∀ (b : Bundle) (s : State), ∃ r : Response, exec (decodeReq b) s = .next { s with offer := some r } ∧
    ((opField b = 0b00#2 ∨ opField b = 0b01#2) → r.outBytes = 0) ∧
    (opField b = 0b10#2 → ∀ k, r.outLen.toNat ≤ k → k < 9 → lane r.outBytes k = 0) ∧
    ((opField b = 0b00#2 ∨ opField b = 0b10#2) → r.outValue = 0) ∧
    (r.status ≠ .ok → r.outLen = 0 ∧ r.outBytes = 0 ∧ r.outValue = 0) ∧
    (r.status = .ok → 1 ≤ r.outLen.toNat ∧ r.outLen.toNat ≤ 9)

/-- R161, R163, R164: a request raises `INSUFFICIENT_INPUT` exactly if it is a PROBE or DECODE with fewer than nine bytes
available and no terminal byte among them, and `ILLEGAL_OP` exactly if its op is the reserved one; ENCODE raises
nothing; an error response is the code with zero in every other field. -/
def Obligations.OnlyTheNamedErrors : Prop :=
  ∀ (b : Bundle) (s : State), ∃ r : Response, exec (decodeReq b) s = .next { s with offer := some r } ∧
    (r.status = .insufficientInput ↔ (opField b = 0b00#2 ∨ opField b = 0b01#2) ∧
      nAvail (lenField b) < 9 ∧ ∀ i, i < nAvail (lenField b) → highBit (bundleLane b i) = true) ∧
    (r.status = .illegalOp ↔ opField b = 0b11#2) ∧
    (opField b = 0b10#2 → r.status = .ok) ∧
    (r.status ≠ .ok → r = ⟨r.status, 0, 0, 0⟩)

/-- R28, R47 (the frame of every instruction): a request's response is a function of the request alone, and answering it
changes nothing but the response on offer: not `pending`, not the pins, not what the host has received, not a wait. -/
def Obligations.ExecIsPure : Prop :=
  ∀ (i : Instr), ∃ r : Response, ∀ s : State, ∃ s', exec i s = .next s' ∧ s'.offer = some r ∧
    s'.pending = s.pending ∧ s'.inReset = s.inReset ∧ s'.reqIn = s.reqIn ∧ s'.queued = s.queued ∧
    s'.rspReady = s.rspReady ∧
    s'.script = s.script ∧ s'.received = s.received ∧ s'.readyWait = s.readyWait ∧ s'.rspWait = s.rspWait ∧
    s'.clock = s.clock

/-! ## The step -/

/-- A step runs the decoded request: at an edge with `rst` = 0 after whose transfers no response is on offer, a request
is pending and its wait is over, the step is `exec` of the decoded oldest request, on the state after the transfers.
At every other edge the step is: in reset, the cleared channel; else the transfers, and the wait runs down.
How the step is built is the model's choice, no rule of the spec: that a step is one clock cycle and that `exec` runs at
the edge which offers the response, on the state after the transfers, is notes/assumptions/6.md (DESIGN CHOICE); the wait
that runs down is the model's own counter of notes/assumptions/3.md.  The spec says only that the response is `Exec` of
the oldest request (R28), between which cycles it is offered (R50), and that an edge with `rst` = 1 empties the channel
(R180). -/
def Obligations.StepRunsDecodedRequest : Prop :=
  ∀ s : State,
    (s.nextMove.rst = true → step s = .next (s.hostDrives.tick Config.timing).clear) ∧
    (s.nextMove.rst = false →
      (∀ b, (s.hostDrives.transfers Config.timing).offer = none →
        (s.hostDrives.transfers Config.timing).pending.head? = some b →
        (s.hostDrives.transfers Config.timing).rspWait = 0 →
        step s = exec (decodeReq b) (s.hostDrives.transfers Config.timing)) ∧
      ((s.hostDrives.transfers Config.timing).offer ≠ none ∨
        (s.hostDrives.transfers Config.timing).pending = [] ∨
        (s.hostDrives.transfers Config.timing).rspWait ≠ 0 →
        step s = .next (s.hostDrives.transfers Config.timing).countDown))

/-- The request `withFetchWord` places is the one the very next step runs, in any state, and the one the table decoder
reads.  Placing a request is the model's own choice (notes/assumptions/9.md, DESIGN CHOICE), no rule of the spec: the
block fetches nothing, and a program is the requests its host issues.  That the step runs what was placed is the step of
notes/assumptions/6.md.  Only the field positions by which the word is read are the spec's (R61, R63). -/
def Obligations.PlacedRequestRunsNext : Prop :=
  ∀ (s : State) (nbits w : Nat) (i : Instr), decodeTableWord nbits w = some i →
    ∃ s', step (s.withFetchWord nbits w) = exec i s' ∧
      s'.received = s.received ∧ s'.offer = none ∧
      s'.pending.head? = some (BitVec.ofNat 142 (w % 2 ^ nbits))

/-- R189: `Exec` is total, so no step is ever stuck, faults or is refused; R12. -/
def Obligations.EveryStepAnswersNext : Prop :=
  ∀ s : State, ∃ s', step s = .next s'

/-- R29: after reset nothing is pending and nothing is on offer; `rsp` has no value.  While `rst` is asserted, in any
state, `req_ready` = 0, `rsp_valid` = 0 (R180). -/
def Obligations.ResetValues : Prop :=
  State.reset.pending = [] ∧ State.reset.rspValid = false ∧ State.reset.rspPort = none ∧
  ∀ s : State, s.inReset = true → s.reqReady Config.timing = false ∧ s.rspValid = false ∧ s.rspPort = none

/-- The invariant holds after reset.  That nothing is pending or on offer then is the spec's (R29).  The clause on the
responses received holds only because the record is empty, which is the model's choice (notes/assumptions/5.md, DESIGN
CHOICE, unsafe): the record is the model's own field, and R27 and R29 say nothing of it. -/
def Obligations.ResetIsConsistent : Prop := State.reset.Consistent Config.timing

/-- Every step keeps the invariant: `pending` within `MAX_OUTSTANDING`, the response on offer `Exec(head(pending))`,
nothing in flight in reset, an awaited response due within `LATENCY`, every received response the answer of a
request (R27, R28, R49, R50, R180). -/
def Obligations.StepKeepsConsistent : Prop :=
  ∀ s s' : State, s.Consistent Config.timing → step s = .next s' → s'.Consistent Config.timing

/-- R180: at an edge with `rst` = 1 nothing transfers, `pending` becomes empty, what was in flight is discarded, and
`req_ready` = 0 and `rsp_valid` = 0. -/
def Obligations.ResetEdgeDiscards : Prop :=
  ∀ s : State, s.nextMove.rst = true →
    s.accepts Config.timing = none ∧ s.delivers = none ∧
    s.hostDrives.reqReady Config.timing = false ∧ s.hostDrives.rspValid = false ∧
    ∃ s', step s = .next s' ∧ s'.pending = [] ∧ s'.offer = none ∧ s'.received = s.received ∧
      s'.reqReady Config.timing = false ∧ s'.rspValid = false

/-- R49: a request transfers exactly when `rst` = 0, `req_valid` = 1 and `req_ready` = 1, and then goes to the back of
`pending` as sampled; none is dropped, reordered or accepted twice; `req_ready` = 0 while `pending` is full. -/
def Obligations.RequestTransferRule : Prop :=
  ∀ s : State,
    (∀ b, s.accepts Config.timing = some b ↔
      s.hostDrives.inReset = false ∧ s.hostDrives.reqIn = some b ∧ s.hostDrives.reqReady Config.timing = true) ∧
    (Config.timing.maxOutstanding ≤ s.pending.length → s.hostDrives.reqReady Config.timing = false) ∧
    (s.nextMove.rst = false → ∃ s', step s = .next s' ∧
      s'.pending = (if s.delivers.isSome then s.pending.tail else s.pending) ++
        (s.accepts Config.timing).toList ∧
      (∀ b, s.accepts Config.timing = some b → s'.reqIn = none) ∧
      (s.accepts Config.timing = none → s'.reqIn = s.hostDrives.reqIn))

/-- R50, second and third points: a response on offer stays unchanged until it transfers (or a reset), and it transfers
exactly at an edge with `rst` = 0, `rsp_valid` = 1 and `rsp_ready` = 1, which removes the head of `pending`. -/
def Obligations.ResponseHeldUntilTaken : Prop :=
  ∀ s : State,
    (∀ r, s.delivers = some r ↔ s.hostDrives.rspValid = true ∧ s.hostDrives.rspReady = true ∧ s.offer = some r) ∧
    (∀ r, s.nextMove.rst = false → s.offer = some r → s.delivers = none →
      ∃ s', step s = .next s' ∧ s'.offer = some r ∧ s'.rspValid = true ∧ s'.rspPort = some r.bits ∧
        s'.received = s.received) ∧
    (∀ r, s.delivers = some r → ∃ s', step s = .next s' ∧ s'.received = s.received ++ [r] ∧
      s'.pending = s.pending.tail ++ (s.accepts Config.timing).toList)

/-- R50, first and last points, as they stand in the interface: `rsp_valid` = 0 while `pending` is empty, and what is
offered is `Exec(head(pending))`. -/
def Obligations.OfferIsExecOfOldest : Prop :=
  ∀ s : State, s.Consistent Config.timing →
    (s.pending = [] → s.rspValid = false ∧ s.rspPort = none) ∧
    (∀ bits, s.rspPort = some bits → ∃ b, s.pending.head? = some b ∧ bits = (Exec b).bits) ∧
    (∀ (b : Bundle) (u : State), exec (decodeReq b) u = .next { u with offer := some (Exec b) })

/-- R50, the bound: when a request becomes the oldest in the coming cycle (it is accepted while none is pending, or the
response before it transfers), its response is on offer, it still being the oldest, at least one and at most `LATENCY`
cycles later, if the host does not assert `rst`. -/
def Obligations.ResponseWithinLatency : Prop :=
  ∀ (t : Timing) (s : State) (b : Bundle), t.Legal → s.Consistent t → s.NoMoreResets →
    (s.pending = [] ∧ s.accepts t = some b ∨
     s.delivers ≠ none ∧ (s.pending.tail ++ (s.accepts t).toList).head? = some b) →
    ∃ k s', 1 ≤ k ∧ k ≤ t.latency ∧ runCycles t k s = .next s' ∧
      s'.pending.head? = some b ∧ s'.rspPort = some (Exec b).bits

/-- R52, second sentence: with room in `pending` and `rst` at 0, `req_ready` becomes 1 within finitely many cycles. -/
def Obligations.ReadyWithinFinitelyManyCycles : Prop :=
  ∀ s : State, s.NoMoreResets → s.pending.length < Config.timing.maxOutstanding →
    ∃ k s', Sys2Proof.core.run k s = .next s' ∧ s'.hostDrives.reqReady Config.timing = true

/-- R52, R187, R190: under any legal parameters, a run with a host that asserts no further reset (and, as R53 asks, takes
each response eventually) comes to its end, and by then the host has received the response of every request it issued,
in order: the same responses whatever the parameters and the block's timing.  That the host takes every response once
its moves are spent is the model's choice (notes/assumptions/4.md). -/
def Obligations.EveryRunEnds : Prop :=
  ∀ (t : Timing) (s : State), t.Legal → s.Consistent t → s.NoMoreResets →
    ∃ n s', runCycles t n s = .next s' ∧ s'.RunOver ∧
      s'.received = s.received ++ (s.pending ++ s.planned).map Exec

/-- R51: responses come in the order their requests were accepted, exactly one for each: after any number of cycles
without a reset, what the host has received, followed by the responses of what is pending, is what it had received,
followed by the responses of what was pending and of what was accepted since, in that order. -/
def Obligations.ResponsesInAcceptanceOrder : Prop :=
  ∀ (n : Nat) (s : State), s.Consistent Config.timing → s.NoMoreResets →
    ∃ s', Sys2Proof.core.run n s = .next s' ∧
      s'.received ++ s'.pending.map Exec =
        s.received ++ (s.pending ++ acceptedDuring Config.timing n s).map Exec

/-- R189: every clock cycle is a sequence of enabled steps of the transaction-level machine, with the same effect on
`pending`, `in_reset` and what the host receives. -/
def Obligations.CycleRefinesTransactions : Prop :=
  ∀ s : State, s.Consistent Config.timing →
    ∃ s', step s = .next s' ∧
      applyMoves Config.timing.maxOutstanding (s.moves Config.timing) s.transactions = some s'.transactions

/-- R185: the host holds its request.  A request it drives that does not transfer, it drives unchanged in the next cycle,
unless `rst` = 1 then. -/
def Obligations.HostHoldsRequest : Prop :=
  ∀ (s : State) (b : Bundle), s.hostDrives.reqIn = some b → s.accepts Config.timing = none →
    ∃ s', step s = .next s' ∧ (s'.nextMove.rst = false → s'.hostDrives.reqIn = some b)

/-- R167, R168: an error does not stick.  Whatever request was answered before, the response to the next is the one it
gets on its own. -/
def Obligations.ErrorsDoNotStick : Prop :=
  ∀ (b c : Bundle) (s s₁ s₂ : State),
    exec (decodeReq b) s = .next s₁ → exec (decodeReq c) s₁ = .next s₂ →
    exec (decodeReq c) s = .next s₂
end

