-- ==== Sys2Proof/Laws/State.lean ====
section
/-! SUPPORT. One lemma for each field of the state and each update of it, true by definition, so that no proof unfolds a record update. -/

namespace Sys2Proof.Machine

variable (s : State)

/-! ### `respond` -/

@[simp] theorem State.respond_inReset (r : Response) : (s.respond r).inReset = s.inReset := rfl
@[simp] theorem State.respond_pending (r : Response) : (s.respond r).pending = s.pending := rfl
@[simp] theorem State.respond_offer (r : Response) : (s.respond r).offer = some r := rfl
@[simp] theorem State.respond_reqIn (r : Response) : (s.respond r).reqIn = s.reqIn := rfl
@[simp] theorem State.respond_queued (r : Response) : (s.respond r).queued = s.queued := rfl
@[simp] theorem State.respond_rspReady (r : Response) : (s.respond r).rspReady = s.rspReady := rfl
@[simp] theorem State.respond_script (r : Response) : (s.respond r).script = s.script := rfl
@[simp] theorem State.respond_received (r : Response) : (s.respond r).received = s.received := rfl
@[simp] theorem State.respond_readyWait (r : Response) : (s.respond r).readyWait = s.readyWait := rfl
@[simp] theorem State.respond_rspWait (r : Response) : (s.respond r).rspWait = s.rspWait := rfl
@[simp] theorem State.respond_clock (r : Response) : (s.respond r).clock = s.clock := rfl

/-! ### `raise` -/

@[simp] theorem State.raise_inReset (c : Status) : (s.raise c).inReset = s.inReset := rfl
@[simp] theorem State.raise_pending (c : Status) : (s.raise c).pending = s.pending := rfl
@[simp] theorem State.raise_offer (c : Status) : (s.raise c).offer = some (errorResponse c) := rfl
@[simp] theorem State.raise_reqIn (c : Status) : (s.raise c).reqIn = s.reqIn := rfl
@[simp] theorem State.raise_queued (c : Status) : (s.raise c).queued = s.queued := rfl
@[simp] theorem State.raise_rspReady (c : Status) : (s.raise c).rspReady = s.rspReady := rfl
@[simp] theorem State.raise_script (c : Status) : (s.raise c).script = s.script := rfl
@[simp] theorem State.raise_received (c : Status) : (s.raise c).received = s.received := rfl
@[simp] theorem State.raise_readyWait (c : Status) : (s.raise c).readyWait = s.readyWait := rfl
@[simp] theorem State.raise_rspWait (c : Status) : (s.raise c).rspWait = s.rspWait := rfl
@[simp] theorem State.raise_clock (c : Status) : (s.raise c).clock = s.clock := rfl

/-! ### `hostDrives` -/

@[simp] theorem State.hostDrives_inReset : (s.hostDrives).inReset = s.nextMove.rst := rfl
@[simp] theorem State.hostDrives_pending : (s.hostDrives).pending = s.pending := rfl
@[simp] theorem State.hostDrives_offer : (s.hostDrives).offer = s.offer := rfl
@[simp] theorem State.hostDrives_reqIn : (s.hostDrives).reqIn = (if s.nextMove.rst then s.nextMove.present else s.reqIn <|> s.wanted.head?) := rfl
@[simp] theorem State.hostDrives_queued : (s.hostDrives).queued = (if s.nextMove.rst then [] else if s.reqIn.isSome then s.wanted else s.wanted.tail) := rfl
@[simp] theorem State.hostDrives_rspReady : (s.hostDrives).rspReady = s.nextMove.rspReady := rfl
@[simp] theorem State.hostDrives_script : (s.hostDrives).script = s.script.tail := rfl
@[simp] theorem State.hostDrives_received : (s.hostDrives).received = s.received := rfl
@[simp] theorem State.hostDrives_readyWait : (s.hostDrives).readyWait = s.readyWait := rfl
@[simp] theorem State.hostDrives_rspWait : (s.hostDrives).rspWait = s.rspWait := rfl
@[simp] theorem State.hostDrives_clock : (s.hostDrives).clock = s.clock := rfl

/-! ### `tick` -/

@[simp] theorem State.tick_inReset (t : Timing) : (s.tick t).inReset = s.inReset := rfl
@[simp] theorem State.tick_pending (t : Timing) : (s.tick t).pending = s.pending := rfl
@[simp] theorem State.tick_offer (t : Timing) : (s.tick t).offer = s.offer := rfl
@[simp] theorem State.tick_reqIn (t : Timing) : (s.tick t).reqIn = s.reqIn := rfl
@[simp] theorem State.tick_queued (t : Timing) : (s.tick t).queued = s.queued := rfl
@[simp] theorem State.tick_rspReady (t : Timing) : (s.tick t).rspReady = s.rspReady := rfl
@[simp] theorem State.tick_script (t : Timing) : (s.tick t).script = s.script := rfl
@[simp] theorem State.tick_received (t : Timing) : (s.tick t).received = s.received := rfl
@[simp] theorem State.tick_readyWait (t : Timing) : (s.tick t).readyWait = (if s.readyWait = 0 then t.readyDelay s.clock else s.readyWait - 1) := rfl
@[simp] theorem State.tick_rspWait (t : Timing) : (s.tick t).rspWait = s.rspWait := rfl
@[simp] theorem State.tick_clock (t : Timing) : (s.tick t).clock = (s.clock + 1) := rfl

/-! ### `take` -/

@[simp] theorem State.take_inReset (t : Timing) (r : Response) : (s.take t r).inReset = s.inReset := rfl
@[simp] theorem State.take_pending (t : Timing) (r : Response) : (s.take t r).pending = s.pending.tail := rfl
@[simp] theorem State.take_offer (t : Timing) (r : Response) : (s.take t r).offer = none := rfl
@[simp] theorem State.take_reqIn (t : Timing) (r : Response) : (s.take t r).reqIn = s.reqIn := rfl
@[simp] theorem State.take_queued (t : Timing) (r : Response) : (s.take t r).queued = s.queued := rfl
@[simp] theorem State.take_rspReady (t : Timing) (r : Response) : (s.take t r).rspReady = s.rspReady := rfl
@[simp] theorem State.take_script (t : Timing) (r : Response) : (s.take t r).script = s.script := rfl
@[simp] theorem State.take_received (t : Timing) (r : Response) : (s.take t r).received = (s.received ++ [r]) := rfl
@[simp] theorem State.take_readyWait (t : Timing) (r : Response) : (s.take t r).readyWait = s.readyWait := rfl
@[simp] theorem State.take_rspWait (t : Timing) (r : Response) : (s.take t r).rspWait = (t.responseDelay s.clock % t.latency) := rfl
@[simp] theorem State.take_clock (t : Timing) (r : Response) : (s.take t r).clock = s.clock := rfl

/-! ### `accept` -/

@[simp] theorem State.accept_inReset (t : Timing) (b : Bundle) : (s.accept t b).inReset = s.inReset := rfl
@[simp] theorem State.accept_pending (t : Timing) (b : Bundle) : (s.accept t b).pending = (s.pending ++ [b]) := rfl
@[simp] theorem State.accept_offer (t : Timing) (b : Bundle) : (s.accept t b).offer = s.offer := rfl
@[simp] theorem State.accept_reqIn (t : Timing) (b : Bundle) : (s.accept t b).reqIn = none := rfl
@[simp] theorem State.accept_queued (t : Timing) (b : Bundle) : (s.accept t b).queued = s.queued := rfl
@[simp] theorem State.accept_rspReady (t : Timing) (b : Bundle) : (s.accept t b).rspReady = s.rspReady := rfl
@[simp] theorem State.accept_script (t : Timing) (b : Bundle) : (s.accept t b).script = s.script := rfl
@[simp] theorem State.accept_received (t : Timing) (b : Bundle) : (s.accept t b).received = s.received := rfl
@[simp] theorem State.accept_readyWait (t : Timing) (b : Bundle) : (s.accept t b).readyWait = s.readyWait := rfl
@[simp] theorem State.accept_rspWait (t : Timing) (b : Bundle) : (s.accept t b).rspWait = (if s.pending.isEmpty then t.responseDelay s.clock % t.latency else s.rspWait) := rfl
@[simp] theorem State.accept_clock (t : Timing) (b : Bundle) : (s.accept t b).clock = s.clock := rfl

/-! ### `clear` -/

@[simp] theorem State.clear_inReset : (s.clear).inReset = s.inReset := rfl
@[simp] theorem State.clear_pending : (s.clear).pending = [] := rfl
@[simp] theorem State.clear_offer : (s.clear).offer = none := rfl
@[simp] theorem State.clear_reqIn : (s.clear).reqIn = s.reqIn := rfl
@[simp] theorem State.clear_queued : (s.clear).queued = s.queued := rfl
@[simp] theorem State.clear_rspReady : (s.clear).rspReady = s.rspReady := rfl
@[simp] theorem State.clear_script : (s.clear).script = s.script := rfl
@[simp] theorem State.clear_received : (s.clear).received = s.received := rfl
@[simp] theorem State.clear_readyWait : (s.clear).readyWait = s.readyWait := rfl
@[simp] theorem State.clear_rspWait : (s.clear).rspWait = s.rspWait := rfl
@[simp] theorem State.clear_clock : (s.clear).clock = s.clock := rfl

/-! ### `withNextRequest` -/

@[simp] theorem State.withNextRequest_inReset (b : Bundle) : (s.withNextRequest b).inReset = s.inReset := rfl
@[simp] theorem State.withNextRequest_pending (b : Bundle) : (s.withNextRequest b).pending = [b] := rfl
@[simp] theorem State.withNextRequest_offer (b : Bundle) : (s.withNextRequest b).offer = none := rfl
@[simp] theorem State.withNextRequest_reqIn (b : Bundle) : (s.withNextRequest b).reqIn = s.reqIn := rfl
@[simp] theorem State.withNextRequest_queued (b : Bundle) : (s.withNextRequest b).queued = s.queued := rfl
@[simp] theorem State.withNextRequest_rspReady (b : Bundle) : (s.withNextRequest b).rspReady = s.rspReady := rfl
@[simp] theorem State.withNextRequest_script (b : Bundle) : (s.withNextRequest b).script = (HostMove.idle :: s.script) := rfl
@[simp] theorem State.withNextRequest_received (b : Bundle) : (s.withNextRequest b).received = s.received := rfl
@[simp] theorem State.withNextRequest_readyWait (b : Bundle) : (s.withNextRequest b).readyWait = s.readyWait := rfl
@[simp] theorem State.withNextRequest_rspWait (b : Bundle) : (s.withNextRequest b).rspWait = 0 := rfl
@[simp] theorem State.withNextRequest_clock (b : Bundle) : (s.withNextRequest b).clock = s.clock := rfl

/-! ### `countDown` -/

@[simp] theorem State.countDown_inReset : (s.countDown).inReset = s.inReset := rfl
@[simp] theorem State.countDown_pending : (s.countDown).pending = s.pending := rfl
@[simp] theorem State.countDown_offer : (s.countDown).offer = s.offer := rfl
@[simp] theorem State.countDown_reqIn : (s.countDown).reqIn = s.reqIn := rfl
@[simp] theorem State.countDown_queued : (s.countDown).queued = s.queued := rfl
@[simp] theorem State.countDown_rspReady : (s.countDown).rspReady = s.rspReady := rfl
@[simp] theorem State.countDown_script : (s.countDown).script = s.script := rfl
@[simp] theorem State.countDown_received : (s.countDown).received = s.received := rfl
@[simp] theorem State.countDown_readyWait : (s.countDown).readyWait = s.readyWait := rfl
@[simp] theorem State.countDown_rspWait : (s.countDown).rspWait = (s.rspWait - 1) := rfl
@[simp] theorem State.countDown_clock : (s.countDown).clock = s.clock := rfl

end Sys2Proof.Machine
end

