-- ==== Sys2Proof/Laws/Operands.lean ====
section
/-! SUPPORT. Laws of the operand forms and of the fields of a bundle: what a packed bundle and a lane field read back as. -/

namespace Sys2Proof.Machine

/-! ### Lanes -/

theorem lane_getLsbD (f : LaneField) (k j : Nat) :
    (lane f k).getLsbD j = (decide (j < 8) && f.getLsbD (8 * k + j)) := by
  simp [lane, BitVec.getLsbD_extractLsb']

theorem laneField_getLsbD (bs : List Byte) :
    ∀ k j, k < 9 → j < 8 → (laneField bs).getLsbD (8 * k + j) = (bs.getD k 0).getLsbD j := by
  induction bs with
  | nil => intro k j _ _; simp [laneField]
  | cons b rest ih =>
    intro k j hk hj
    cases k with
    | zero =>
      have h72 : j < 72 := by omega
      simp only [laneField, BitVec.getLsbD_or, BitVec.getLsbD_shiftLeft, BitVec.getLsbD_setWidth,
        BitVec.zeroExtend_eq_setWidth, List.getD_cons_zero, Nat.mul_zero, Nat.zero_add, hj, h72]
      simp
    | succ k =>
      have hlt : 8 * (k + 1) + j < 72 := by omega
      have hge : ¬ 8 * (k + 1) + j < 8 := by omega
      have hsub : 8 * (k + 1) + j - 8 = 8 * k + j := by omega
      have hb : b.getLsbD (8 * (k + 1) + j) = false := BitVec.getLsbD_of_ge _ _ (by omega)
      simp only [laneField, BitVec.getLsbD_or, BitVec.getLsbD_shiftLeft, BitVec.getLsbD_setWidth,
        BitVec.zeroExtend_eq_setWidth, List.getD_cons_succ, hb, hlt, hge, hsub, ih k j (by omega) hj]
      simp

/-- Lane `k` of the field a byte list fills is byte `k`, and zero past the list. -/
theorem lane_laneField (bs : List Byte) {k : Nat} (hk : k < 9) : lane (laneField bs) k = bs.getD k 0 := by
  apply BitVec.eq_of_getLsbD_eq
  intro j hj
  rw [lane_getLsbD, laneField_getLsbD bs k j hk hj]
  simp [hj]

/-- Two lane fields with the same nine lanes are the same. -/
theorem laneField_ext {f g : LaneField} (h : ∀ k < 9, lane f k = lane g k) : f = g := by
  apply BitVec.eq_of_getLsbD_eq
  intro i hi
  have hk := congrArg (fun b : Byte => b.getLsbD (i % 8)) (h (i / 8) (by omega))
  have hj : i % 8 < 8 := by omega
  have hi' : 8 * (i / 8) + i % 8 = i := by omega
  simp only [lane_getLsbD, hj, hi'] at hk
  simpa only [decide_true, Bool.true_and] using hk

/-! ### `n_avail` and the supplied bytes -/

theorem nAvail_le (n : BitVec 4) : nAvail n ≤ 9 := by simp [nAvail]

/-- On a well-formed request the supplied bytes are the whole list. -/
theorem supplied_eq {n : BitVec 4} {bs : List Byte} (h : bs.length = nAvail n) : supplied n bs = bs := by
  simp [supplied, ← h]

theorem supplied_length_le (n : BitVec 4) (bs : List Byte) : (supplied n bs).length ≤ 9 := by
  have := nAvail_le n
  simp only [supplied, List.length_take]
  omega

/-- A byte is its continuation bit and its payload (R41). -/
theorem payload_toNat_lt (b : Byte) : (payload b).toNat < 128 := by
  have : (payload b).toNat ≤ 127 := by
    rw [payload, BitVec.toNat_and]
    exact Nat.and_le_right
  omega

end Sys2Proof.Machine

namespace Sys2Proof

/-! ### The fields of a packed bundle -/

variable (op : BitVec 2) (len : BitVec 4) (lanes : LaneField) (value : Word)

theorem pack_getLsbD (i : Nat) :
    (pack op len lanes value).getLsbD i =
      if i < 2 then op.getLsbD i
      else if i < 6 then len.getLsbD (i - 2)
      else if i < 78 then lanes.getLsbD (i - 6)
      else value.getLsbD (i - 78) := by
  simp only [pack, BitVec.getLsbD_append]
  by_cases h2 : i < 2
  · simp only [h2, if_true]
  · by_cases h6 : i < 6
    · have : i - 2 < 4 := by omega
      simp only [h2, h6, this, if_true, if_false]
    · by_cases h78 : i < 78
      · have a4 : ¬ i - 2 < 4 := by omega
        have a72 : i - 2 - 4 < 72 := by omega
        have e : i - 2 - 4 = i - 6 := by omega
        simp only [h2, h6, h78, a4, e, if_true, if_false]
        rw [e] at a72
        simp only [a72, if_true]
      · have a4 : ¬ i - 2 < 4 := by omega
        have a72 : ¬ i - 6 < 72 := by omega
        have e : i - 2 - 4 = i - 6 := by omega
        have e' : i - 6 - 72 = i - 78 := by omega
        simp only [h2, h6, h78, a4, a72, e, e', if_false]

@[simp] theorem opField_pack : opField (pack op len lanes value) = op := by
  apply BitVec.eq_of_getLsbD_eq
  intro i hi
  simp only [opField, BitVec.getLsbD_extractLsb', pack_getLsbD, hi, Nat.zero_add, if_true, decide_true, Bool.true_and]

@[simp] theorem lenField_pack : lenField (pack op len lanes value) = len := by
  apply BitVec.eq_of_getLsbD_eq
  intro i hi
  have h2 : ¬ 2 + i < 2 := by omega
  have h6 : 2 + i < 6 := by omega
  have e : 2 + i - 2 = i := by omega
  simp only [lenField, BitVec.getLsbD_extractLsb', pack_getLsbD, hi, h2, h6, e, if_true, if_false, decide_true, Bool.true_and]

@[simp] theorem lanesField_pack : lanesField (pack op len lanes value) = lanes := by
  apply BitVec.eq_of_getLsbD_eq
  intro i hi
  have h2 : ¬ 6 + i < 2 := by omega
  have h6 : ¬ 6 + i < 6 := by omega
  have h78 : 6 + i < 78 := by omega
  have e : 6 + i - 6 = i := by omega
  simp only [lanesField, BitVec.getLsbD_extractLsb', pack_getLsbD, hi, h2, h6, h78, e, if_true, if_false, decide_true, Bool.true_and]

@[simp] theorem valueField_pack : valueField (pack op len lanes value) = value := by
  apply BitVec.eq_of_getLsbD_eq
  intro i hi
  have h2 : ¬ 78 + i < 2 := by omega
  have h6 : ¬ 78 + i < 6 := by omega
  have h78 : ¬ 78 + i < 78 := by omega
  have e : 78 + i - 78 = i := by omega
  simp only [valueField, BitVec.getLsbD_extractLsb', pack_getLsbD, hi, h2, h6, h78, e, if_false, decide_true, Bool.true_and]

/-- A bundle is the pack of its four fields: no bit of it belongs to none. -/
theorem pack_fields (b : Bundle) : pack (opField b) (lenField b) (lanesField b) (valueField b) = b := by
  apply BitVec.eq_of_getLsbD_eq
  intro i hi
  rw [pack_getLsbD]
  simp only [opField, lenField, lanesField, valueField, BitVec.getLsbD_extractLsb']
  split
  · simp_all
  · split
    · have e : 2 + (i - 2) = i := by omega
      have : i - 2 < 4 := by omega
      simp [this, e]
    · split
      · have e : 6 + (i - 6) = i := by omega
        have : i - 6 < 72 := by omega
        simp [this, e]
      · have e : 78 + (i - 78) = i := by omega
        have : i - 78 < 64 := by omega
        simp [this, e]

/-- Lane `i` of a bundle is lane `i` of its lane field. -/
theorem bundleLane_eq (b : Bundle) {i : Nat} (hi : i < 9) : bundleLane b i = Machine.lane (lanesField b) i := by
  apply BitVec.eq_of_getLsbD_eq
  intro j hj
  have h : 8 * i + j < 72 := by omega
  have e : 6 + 8 * i + j = 6 + (8 * i + j) := by omega
  simp only [bundleLane, Machine.lane_getLsbD, lanesField, BitVec.getLsbD_extractLsb', hj, h, e, decide_true, Bool.true_and]

/-! ### The supplied bytes of a bundle -/

@[simp] theorem suppliedBytes_length (b : Bundle) :
    (suppliedBytes b).length = Machine.nAvail (lenField b) := by simp [suppliedBytes]

theorem suppliedBytes_getElem? (b : Bundle) {i : Nat} (hi : i < Machine.nAvail (lenField b)) :
    (suppliedBytes b)[i]? = some (bundleLane b i) := by simp [suppliedBytes, hi]

/-- The supplied bytes of a packed list that has `n_avail` bytes are the list. -/
theorem suppliedBytes_pack {bs : List Byte} (h : bs.length = Machine.nAvail len) :
    suppliedBytes (pack op len (Machine.laneField bs) value) = bs := by
  apply List.ext_getElem?
  intro i
  by_cases hi : i < Machine.nAvail len
  · have h9 : i < 9 := Nat.lt_of_lt_of_le hi (Machine.nAvail_le len)
    rw [suppliedBytes_getElem? _ (by simpa using hi), bundleLane_eq _ h9, lanesField_pack,
      Machine.lane_laneField _ h9, List.getElem?_eq_getElem (by omega), List.getD_eq_getElem _ _ (by omega)]
  · rw [List.getElem?_eq_none (by simp; omega), List.getElem?_eq_none (by omega)]

/-! ### Bytes -/

@[simp] theorem leBytes_length (n v : Nat) : (leBytes n v).length = n := by
  induction n generalizing v with
  | zero => rfl
  | succ n ih => simp [leBytes, ih]

/-- The low bytes of a number read back as the number, as far as they reach. -/
theorem leNat_leBytes (n v : Nat) : leNat (leBytes n v) = v % 256 ^ n := by
  induction n generalizing v with
  | zero => simp [leBytes, leNat, Nat.mod_one]
  | succ n ih =>
    rw [leBytes, leNat, ih, BitVec.toNat_ofNat, Nat.pow_succ 256 n, Nat.mul_comm (256 ^ n) 256, Nat.mod_mul]

end Sys2Proof
end

