-- ==== Sys2Proof/Laws/Units.lean ====
section
/-! SUPPORT. What the loops of the three units do, from any point of the loop on, and what `exec` does with any request. -/

namespace Sys2Proof.Machine

/-! ### Chunks -/

/-- Where a scan at byte index `i` finds its terminal byte: the first byte of `bytes` with bit 7 clear, among those
that stand before index 8 (R71). -/
def scanHit (i : Nat) (bytes : List Byte) : Option Nat :=
  (bytes.take (8 - i)).findIdx? (fun b => !highBit b)

theorem scanHit_cons_high {i : Nat} {b : Byte} {rest : List Byte} (hi : i < 8) (hb : highBit b = true) :
    scanHit i (b :: rest) = (scanHit (i + 1) rest).map (· + 1) := by
  have : 8 - i = (8 - (i + 1)) + 1 := by omega
  simp [scanHit, this, List.findIdx?_cons, hb]

theorem scanHit_cons_low {i : Nat} {b : Byte} {rest : List Byte} (hi : i < 8) (hb : highBit b = false) :
    scanHit i (b :: rest) = some 0 := by
  have : 8 - i = (8 - (i + 1)) + 1 := by omega
  simp [scanHit, this, List.findIdx?_cons, hb]

theorem terminalIndex_eq_scanHit (bytes : List Byte) : terminalIndex bytes = (scanHit 0 bytes).getD 8 := by
  unfold terminalIndex scanHit
  cases (bytes.take 8).findIdx? (fun b => !highBit b) <;> simp_all

theorem chunkSum_append_singleton (bs : List Byte) (b : Byte) :
    chunkSum (bs ++ [b]) = chunkSum bs * 128 + (payload b).toNat := by
  induction bs with
  | nil => simp [chunkSum]
  | cons c rest ih =>
    have h2 : 2 ^ (7 * (rest.length + 1)) = 2 ^ (7 * rest.length) * 128 := by
      rw [Nat.mul_add, Nat.pow_add]
    simp only [List.cons_append, chunkSum, ih, List.length_append, List.length_singleton, h2]
    ring

/-- `n` chunks hold `7n` bits. -/
theorem chunkSum_lt (bs : List Byte) : chunkSum bs < 2 ^ (7 * bs.length) := by
  induction bs with
  | nil => simp [chunkSum]
  | cons b rest ih =>
    have h2 : 2 ^ (7 * (rest.length + 1)) = 128 * 2 ^ (7 * rest.length) := by
      rw [Nat.mul_add, Nat.pow_add, Nat.mul_comm]
    have := payload_toNat_lt b
    simp only [chunkSum, List.length_cons, h2]
    nlinarith [Nat.mul_le_mul_right (2 ^ (7 * rest.length)) (Nat.le_of_lt_succ this)]

/-! ### PROBE -/

/-- The scan from index `i` on: it answers one more than the index of the terminal byte, if that byte is supplied. -/
theorem probeScan_eq (bytes : List Byte) : ∀ i, i ≤ 8 →
    probeScan i bytes =
      match scanHit i bytes with
      | some k => some (i + k + 1)
      | none => if 8 - i < bytes.length then some 9 else none := by
  induction bytes with
  | nil => intro i _; simp [probeScan, scanHit]
  | cons b rest ih =>
    intro i hi
    by_cases h8 : i = 8
    · subst h8; simp [probeScan, scanHit]
    · have hlt : i < 8 := by omega
      rw [probeScan, if_neg h8]
      cases hb : highBit b with
      | false => simp [scanHit_cons_low hlt hb]
      | true =>
        rw [if_pos rfl, ih (i + 1) (by omega), scanHit_cons_high hlt hb]
        cases hs : scanHit (i + 1) rest with
        | some k => simp; omega
        | none =>
          simp only [Option.map_none, List.length_cons]
          congr 1
          simp only [eq_iff_iff]
          omega

/-! ### DECODE -/

/-- One step of the accumulator takes in seven bits and loses none (R112, R150). -/
theorem accumulate_toNat {acc : Word} {b : Byte} (h : acc.toNat < 2 ^ 57) :
    ((acc <<< 7) ||| (payload b).zeroExtend 64).toNat = acc.toNat * 2 ^ 7 + (payload b).toNat := by
  have hp := payload_toNat_lt b
  have hs : (acc <<< 7).toNat = acc.toNat <<< 7 := by
    rw [BitVec.toNat_shiftLeft, Nat.mod_eq_of_lt]
    rw [Nat.shiftLeft_eq]; omega
  have hz : ((payload b).zeroExtend 64).toNat = (payload b).toNat := by
    rw [BitVec.zeroExtend_eq_setWidth, BitVec.toNat_setWidth, Nat.mod_eq_of_lt]; omega
  rw [BitVec.toNat_or, hs, hz, ← Nat.shiftLeft_add_eq_or_of_lt (by omega), Nat.shiftLeft_eq]

/-- The ninth byte gives all its eight bits, and none is lost (R112). -/
theorem accumulateLast_toNat {acc : Word} {b : Byte} (h : acc.toNat < 2 ^ 56) :
    ((acc <<< 8) ||| b.zeroExtend 64).toNat = acc.toNat * 2 ^ 8 + b.toNat := by
  have hb : b.toNat < 2 ^ 8 := b.isLt
  have hs : (acc <<< 8).toNat = acc.toNat <<< 8 := by
    rw [BitVec.toNat_shiftLeft, Nat.mod_eq_of_lt]
    rw [Nat.shiftLeft_eq]; omega
  have hz : (b.zeroExtend 64).toNat = b.toNat := by
    rw [BitVec.zeroExtend_eq_setWidth, BitVec.toNat_setWidth, Nat.mod_eq_of_lt]; omega
  rw [BitVec.toNat_or, hs, hz, ← Nat.shiftLeft_add_eq_or_of_lt hb, Nat.shiftLeft_eq]

/-- The pattern the loop has built when it stops, as an exact number, from index `i` on with accumulator `acc`. -/
def scanPattern (i acc : Nat) (bytes : List Byte) : Nat :=
  match scanHit i bytes with
  | some k => acc * 2 ^ (7 * (k + 1)) + chunkSum (bytes.take (k + 1))
  | none => (acc * 2 ^ (7 * (8 - i)) + chunkSum (bytes.take (8 - i))) * 2 ^ 8 + (bytes.getD (8 - i) 0).toNat

/-- The loop from index `i` on: it stops where PROBE stops, with the pattern of the chunks, no bit of which is lost. -/
theorem decodeScan_eq (bytes : List Byte) : ∀ i (acc : Word), i ≤ 8 → acc.toNat < 2 ^ (7 * i) →
    (decodeScan i acc bytes).map (·.1) = probeScan i bytes ∧
    ∀ r, decodeScan i acc bytes = some r → r.2.toNat = scanPattern i acc.toNat bytes := by
  induction bytes with
  | nil => intro i acc _ _; simp [decodeScan, probeScan]
  | cons b rest ih =>
    intro i acc hi hacc
    by_cases h8 : i = 8
    · subst h8
      refine ⟨by simp [decodeScan, probeScan], ?_⟩
      intro r hr
      rw [decodeScan, if_pos rfl, Option.some.injEq] at hr
      subst hr
      rw [accumulateLast_toNat (by simpa using hacc)]
      simp [scanPattern, scanHit, chunkSum]
    · have hlt : i < 8 := by omega
      have h57 : acc.toNat < 2 ^ 57 :=
        Nat.lt_of_lt_of_le hacc (Nat.pow_le_pow_right (by omega) (by omega))
      have hstep := accumulate_toNat (b := b) h57
      have hp := payload_toNat_lt b
      rw [decodeScan, probeScan, if_neg h8, if_neg h8]
      cases hb : highBit b with
      | false =>
        refine ⟨by simp, ?_⟩
        intro r hr
        simp only [Bool.false_eq_true, if_false, Option.some.injEq] at hr
        subst hr
        rw [hstep]
        simp [scanPattern, scanHit_cons_low hlt hb, chunkSum]
      | true =>
        simp only [if_true]
        have hacc' : ((acc <<< 7) ||| (payload b).zeroExtend 64).toNat < 2 ^ (7 * (i + 1)) := by
          rw [hstep, Nat.mul_add, Nat.pow_add]
          omega
        obtain ⟨h1, h2⟩ := ih (i + 1) _ (by omega) hacc'
        refine ⟨h1, fun r hr => ?_⟩
        rw [h2 r hr, hstep]
        have e : 8 - i = (8 - (i + 1)) + 1 := by omega
        unfold scanPattern
        rw [scanHit_cons_high hlt hb]
        cases hs : scanHit (i + 1) rest with
        | some k =>
          have hk : k < rest.length := by
            have := List.findIdx?_eq_some_iff_getElem.mp hs
            obtain ⟨hk, _⟩ := this
            rw [List.length_take] at hk
            omega
          have hl : (rest.take (k + 1)).length = k + 1 := by rw [List.length_take]; omega
          simp only [Option.map_some, List.take_succ_cons, chunkSum, hl]
          have : 2 ^ (7 * (k + 1 + 1)) = 2 ^ 7 * 2 ^ (7 * (k + 1)) := by
            rw [← Nat.pow_add]; congr 1; omega
          rw [this]; ring
        | none =>
          have hl : (rest.take (8 - (i + 1))).length = 8 - (i + 1) := by
            have hsome : decodeScan (i + 1) ((acc <<< 7) ||| (payload b).zeroExtend 64) rest = some r := hr
            have hne : probeScan (i + 1) rest = some r.1 := by rw [← h1, hsome]; rfl
            rw [probeScan_eq rest (i + 1) (by omega), hs] at hne
            by_cases hlen : 8 - (i + 1) < rest.length
            · rw [List.length_take]; omega
            · rw [if_neg hlen] at hne
              exact absurd hne (by simp)
          simp only [Option.map_none, e, List.take_succ_cons, chunkSum, hl, List.getD_cons_succ]
          have : 2 ^ (7 * (8 - (i + 1) + 1)) = 2 ^ 7 * 2 ^ (7 * (8 - (i + 1))) := by
            rw [← Nat.pow_add]; congr 1; omega
          rw [this]; ring

/-! ### ENCODE -/

/-- The chunk at place `k` of a pattern: bits `7k+6` down to `7k`. -/
def chunkAt (w : Word) (k : Nat) : BitVec 7 := w.extractLsb' (7 * k) 7

/-- The `n` low chunks of a pattern as bytes with the continuation bit, most significant first. -/
def flaggedChunks (w : Word) : Nat → List Byte
  | 0 => []
  | n + 1 => ((chunkAt w n).zeroExtend 8 ||| contBit) :: flaggedChunks w n

@[simp] theorem flaggedChunks_length (w : Word) (n : Nat) : (flaggedChunks w n).length = n := by
  induction n with
  | zero => rfl
  | succ n ih => simp [flaggedChunks, ih]

theorem chunkAt_ushiftRight (w : Word) (k : Nat) : chunkAt (w >>> 7) k = chunkAt w (k + 1) := by
  apply BitVec.eq_of_getLsbD_eq
  intro j hj
  have e : 7 + (7 * k + j) = 7 * (k + 1) + j := by omega
  simp only [chunkAt, BitVec.getLsbD_extractLsb', BitVec.getLsbD_ushiftRight, e]

theorem flaggedChunks_snoc (w : Word) (n : Nat) (buf : List Byte) :
    flaggedChunks (w >>> 7) n ++ (((chunkAt w 0).zeroExtend 8 ||| contBit) :: buf) =
      flaggedChunks w (n + 1) ++ buf := by
  induction n with
  | zero => rfl
  | succ n ih =>
    rw [flaggedChunks, List.cons_append, ih, chunkAt_ushiftRight]
    rfl

/-- In the 9-byte form the loop puts exactly `fuel` flagged chunks in front of what is there. -/
theorem packLoop_nine (fuel : Nat) : ∀ (w : Word) (buf : List Byte), buf ≠ [] →
    packLoop false true fuel w buf = flaggedChunks w fuel ++ buf := by
  induction fuel with
  | zero => intro w buf _; rfl
  | succ n ih =>
    intro w buf hbuf
    have hf : flagged buf (w.extractLsb' 0 7) = (chunkAt w 0).zeroExtend 8 ||| contBit := by
      simp [flagged, hbuf, chunkAt]
    rw [packLoop, hf]
    simp only [Bool.not_true, Bool.false_and, Bool.false_eq_true, if_false, shiftDown]
    rw [ih _ _ (by simp), flaggedChunks_snoc]

/-- In the form of 1 to 8 bytes the loop, once a byte stands there, puts chunks in front until the working value is
spent: for some `n` it takes `n` chunks, the last of them the first to leave nothing. -/
theorem packLoop_short_tail (fuel : Nat) : ∀ (w : Word) (buf : List Byte), buf ≠ [] → w.toNat < 2 ^ (7 * fuel) →
    w ≠ 0 → ∃ n, 1 ≤ n ∧ n ≤ fuel ∧ 2 ^ (7 * (n - 1)) ≤ w.toNat ∧ w.toNat < 2 ^ (7 * n) ∧
      packLoop false false fuel w buf = flaggedChunks w n ++ buf := by
  induction fuel with
  | zero =>
    intro w buf _ hw h0
    exact absurd (BitVec.eq_of_toNat_eq (by simpa using hw)) h0
  | succ m ih =>
    intro w buf hbuf hw h0
    have hpos : 1 ≤ w.toNat := by
      rcases Nat.eq_zero_or_pos w.toNat with h | h
      · exact absurd (BitVec.eq_of_toNat_eq (by simpa using h)) h0
      · exact h
    have hf : flagged buf (w.extractLsb' 0 7) = (chunkAt w 0).zeroExtend 8 ||| contBit := by
      simp [flagged, hbuf, chunkAt]
    have hsh : (w >>> 7).toNat = w.toNat / 128 := by
      rw [BitVec.toNat_ushiftRight, Nat.shiftRight_eq_div_pow]
    rw [packLoop, hf]
    simp only [Bool.not_false, Bool.true_and, shiftDown, Bool.false_eq_true, if_false]
    by_cases hz : w >>> 7 = 0
    · have : w.toNat / 128 = 0 := by rw [← hsh, hz]; rfl
      refine ⟨1, by omega, by omega, by simpa using hpos, by omega, ?_⟩
      simp [hz, flaggedChunks]
    · have hlt : (w >>> 7).toNat < 2 ^ (7 * m) := by
        rw [hsh]
        have : 2 ^ (7 * (m + 1)) = 2 ^ (7 * m) * 128 := by rw [Nat.mul_add, Nat.pow_add]
        omega
      obtain ⟨n, h1, h2, h3, h4, h5⟩ := ih (w >>> 7) (((chunkAt w 0).zeroExtend 8 ||| contBit) :: buf) (by simp) hlt hz
      refine ⟨n + 1, by omega, by omega, ?_, ?_, ?_⟩
      · have : 2 ^ (7 * (n + 1 - 1)) = 2 ^ (7 * (n - 1)) * 128 := by
          have : 7 * (n + 1 - 1) = 7 * (n - 1) + 7 := by omega
          rw [this, Nat.pow_add]
        omega
      · have : 2 ^ (7 * (n + 1)) = 2 ^ (7 * n) * 128 := by rw [Nat.mul_add, Nat.pow_add]
        omega
      · rw [if_neg (by simpa using hz), h5, flaggedChunks_snoc]

/-! ### Any request -/

/-- What `exec` does, said once: it offers the answer of the request and touches nothing else (R28, R47). -/
theorem exec_eq (i : Instr) (s : State) : exec i s = .next (s.respond (answer i)) := by
  cases i <;> rfl

end Sys2Proof.Machine
end

