-- ==== Sys2Proof/Laws/Channel.lean ====
section
/-! SUPPORT. What one clock cycle can do, said once, and the moves of the channel one by one. -/

namespace Sys2Proof.Machine

variable (t : Timing) (s : State)

/-- A rising edge with `rst` = 1 clears the channel, and that is all but the timing counters. -/
theorem cycle_of_reset (h : s.hostDrives.inReset = true) : cycle t s = .next (s.hostDrives.tick t).clear := by
  simp only [cycle, clockEdge, h, if_true]

/-- A rising edge with `rst` = 0 where a response is due: the transfers, then `exec` of the oldest request. -/
theorem cycle_of_due (h : s.hostDrives.inReset = false) {b : Bundle}
    (hd : (s.hostDrives.transfers t).due = some b) :
    cycle t s = exec (decodeReq b) (s.hostDrives.transfers t) := by
  simp only [cycle, clockEdge, h, hd, Bool.false_eq_true, if_false]

/-- A rising edge with `rst` = 0 where no response is due: the transfers, and the wait runs down. -/
theorem cycle_of_not_due (h : s.hostDrives.inReset = false) (hd : (s.hostDrives.transfers t).due = none) :
    cycle t s = .next (s.hostDrives.transfers t).countDown := by
  simp only [cycle, clockEdge, h, hd, Bool.false_eq_true, if_false]

/-- A response is due exactly when none is on offer, the request is the oldest, and its wait is over. -/
theorem due_eq_some {b : Bundle} :
    s.due = some b ↔ s.offer = none ∧ s.pending.head? = some b ∧ s.rspWait = 0 := by
  unfold State.due
  cases s.offer <;> cases s.pending <;> cases s.rspWait <;> simp

/-- A cycle answers a next state, and it is one of three (R189). -/
theorem cycle_cases : ∃ s', cycle t s = .next s' ∧
    ((s.hostDrives.inReset = true ∧ s' = (s.hostDrives.tick t).clear) ∨
     (s.hostDrives.inReset = false ∧ ∃ b, (s.hostDrives.transfers t).due = some b ∧
        s' = (s.hostDrives.transfers t).respond (Exec b)) ∨
     (s.hostDrives.inReset = false ∧ (s.hostDrives.transfers t).due = none ∧
        s' = (s.hostDrives.transfers t).countDown)) := by
  cases h : s.hostDrives.inReset with
  | true => exact ⟨_, cycle_of_reset t s h, .inl ⟨rfl, rfl⟩⟩
  | false =>
    cases hd : (s.hostDrives.transfers t).due with
    | some b => exact ⟨_, by rw [cycle_of_due t s h hd, exec_eq]; rfl, .inr (.inl ⟨rfl, b, rfl, rfl⟩)⟩
    | none => exact ⟨_, cycle_of_not_due t s h hd, .inr (.inr ⟨rfl, rfl, rfl⟩)⟩

/-! ### The transfers -/

/-- The request that transfers, with the three pins of R49. -/
theorem transferIn_eq_some {b : Bundle} :
    s.transferIn t = some b ↔ s.reqIn = some b ∧ s.reqReady t = true := by
  unfold State.transferIn
  cases s.reqIn with
  | none => simp
  | some c => by_cases h : s.reqReady t = true <;> simp [h]

/-- The response that transfers, with the three pins of R50. -/
theorem transferOut_eq_some {r : Response} :
    s.transferOut = some r ↔ s.inReset = false ∧ s.rspReady = true ∧ s.offer = some r := by
  unfold State.transferOut
  cases s.inReset <;> cases s.rspReady <;> simp

/-- `req_ready` = 1 only with `rst` = 0, room in `pending`, and the block's wait over (R49, R180). -/
theorem reqReady_eq_true :
    s.reqReady t = true ↔ s.inReset = false ∧ s.pending.length < t.maxOutstanding ∧ s.readyWait = 0 := by
  simp [State.reqReady, and_assoc]

/-- After the transfers, `pending` is what it was without a taken head, with an accepted request at the back. -/
theorem transfers_pending : (s.transfers t).pending =
    (if s.transferOut.isSome then s.pending.tail else s.pending) ++ (s.transferIn t).toList := by
  unfold State.transfers State.takeIf State.acceptIf
  cases s.transferOut <;> cases s.transferIn t <;> simp

/-- After the transfers, what the host has received has grown by the response it took. -/
theorem transfers_received : (s.transfers t).received = s.received ++ s.transferOut.toList := by
  unfold State.transfers State.takeIf State.acceptIf
  cases s.transferOut <;> cases s.transferIn t <;> simp

/-- After the transfers, nothing is on offer if a response was taken, and else what was. -/
theorem transfers_offer : (s.transfers t).offer = if s.transferOut.isSome then none else s.offer := by
  unfold State.transfers State.takeIf State.acceptIf
  cases s.transferOut <;> cases s.transferIn t <;> simp

/-- After the transfers, the host drives no request if its request was accepted, and else what it drove. -/
theorem transfers_reqIn : (s.transfers t).reqIn = if (s.transferIn t).isSome then none else s.reqIn := by
  unfold State.transfers State.takeIf State.acceptIf
  cases s.transferOut <;> cases s.transferIn t <;> simp

/-- The transfers leave what waits at the host alone. -/
@[simp] theorem transfers_queued : (s.transfers t).queued = s.queued := by
  unfold State.transfers State.takeIf State.acceptIf
  cases s.transferOut <;> cases s.transferIn t <;> simp

@[simp] theorem transfers_inReset : (s.transfers t).inReset = s.inReset := by
  unfold State.transfers State.takeIf State.acceptIf
  cases s.transferOut <;> cases s.transferIn t <;> simp

@[simp] theorem transfers_script : (s.transfers t).script = s.script := by
  unfold State.transfers State.takeIf State.acceptIf
  cases s.transferOut <;> cases s.transferIn t <;> simp

@[simp] theorem transfers_rspReady : (s.transfers t).rspReady = s.rspReady := by
  unfold State.transfers State.takeIf State.acceptIf
  cases s.transferOut <;> cases s.transferIn t <;> simp

/-- After the transfers, the wait is a fresh one, within `LATENCY`, if another request became the oldest. -/
theorem transfers_rspWait_fresh
    (h : s.transferOut.isSome = true ∨ s.pending = [] ∧ (s.transferIn t).isSome = true) :
    (s.transfers t).rspWait = t.responseDelay (s.clock + 1) % t.latency := by
  unfold State.transfers State.takeIf State.acceptIf
  cases ho : s.transferOut <;> cases hi : s.transferIn t <;> simp_all

/-- After the transfers, the wait is what it was if the oldest request is the one it was. -/
theorem transfers_rspWait_same
    (h : ¬ (s.transferOut.isSome = true ∨ s.pending = [] ∧ (s.transferIn t).isSome = true)) :
    (s.transfers t).rspWait = s.rspWait := by
  unfold State.transfers State.takeIf State.acceptIf
  cases ho : s.transferOut <;> cases hi : s.transferIn t <;> simp_all

/-- The wait for `req_ready` runs down by one, and starts again with a free length once it is over. -/
theorem transfers_readyWait : (s.transfers t).readyWait =
    if s.readyWait = 0 then t.readyDelay s.clock else s.readyWait - 1 := by
  unfold State.transfers State.takeIf State.acceptIf
  cases s.transferOut <;> cases s.transferIn t <;> simp

/-- A cycle with `rst` = 0, field by field: the transfers, and then either a response goes on offer or the wait for one
runs down. -/
theorem cycle_of_no_reset (h : s.nextMove.rst = false) : ∃ s', cycle t s = .next s' ∧
    s'.inReset = false ∧
    s'.pending = (s.hostDrives.transfers t).pending ∧
    s'.reqIn = (s.hostDrives.transfers t).reqIn ∧
    s'.queued = s.hostDrives.queued ∧
    s'.script = s.script.tail ∧
    s'.received = (s.hostDrives.transfers t).received ∧
    s'.readyWait = (s.hostDrives.transfers t).readyWait ∧
    (((s.hostDrives.transfers t).due = none ∧ s'.offer = (s.hostDrives.transfers t).offer ∧
        s'.rspWait = (s.hostDrives.transfers t).rspWait - 1) ∨
      ∃ b, (s.hostDrives.transfers t).due = some b ∧ s'.offer = some (Exec b)) := by
  have hr : s.hostDrives.inReset = false := h
  cases hd : (s.hostDrives.transfers t).due with
  | some b =>
    refine ⟨_, by rw [cycle_of_due t s hr hd, exec_eq], ?_⟩
    simp [h, Exec]
  | none =>
    refine ⟨_, cycle_of_not_due t s hr hd, ?_⟩
    simp [h]

/-- The machine's own parameters are legal (R9). -/
theorem timing_legal : Config.timing.Legal := ⟨Nat.succ_pos _, Nat.succ_pos _⟩

/-! ### Runs -/

/-- A run of any machine goes on from its first step. -/
theorem coreRun_succ (M : Host.Core) {s s' : M.State} (h : M.step s = .next s') (n : Nat) :
    M.run (n + 1) s = M.run n s' := by
  rw [Host.Core.run, h]

/-- A run under any parameters goes on from its first cycle. -/
theorem runCycles_succ {t : Timing} {s s' : State} (h : cycle t s = .next s') (n : Nat) :
    runCycles t (n + 1) s = runCycles t n s' :=
  coreRun_succ { Sys2Proof.core with step := cycle t } h n

/-- A run of this machine goes on from its first step. -/
theorem run_succ {s s' : State} (h : step s = .next s') (n : Nat) :
    Sys2Proof.core.run (n + 1) s = Sys2Proof.core.run n s' := coreRun_succ Sys2Proof.core h n

end Sys2Proof.Machine
end

