-- ==== Sys2Proof/Laws/Format.lean ====
section
/-! SUPPORT. Laws of the wire format: where the terminal byte stands, what a chunk of a pattern is, and which bytes ENCODE
builds. -/

namespace Sys2Proof.Machine

/-! ### The terminal byte (R71) -/

/-- No terminal byte before index 8: every byte there has bit 7 set. -/
theorem scanHit_eq_none {i : Nat} {bytes : List Byte} :
    scanHit i bytes = none ↔ ∀ k, k < 8 - i → k < bytes.length → highBit (bytes.getD k 0) = true := by
  unfold scanHit
  rw [List.findIdx?_eq_none_iff]
  constructor
  · intro h k hk hl
    have hm : bytes[k] ∈ bytes.take (8 - i) := List.mem_take_iff_getElem.mpr ⟨k, by omega, rfl⟩
    rw [List.getD_eq_getElem _ _ hl]
    simpa using h _ hm
  · intro h x hx
    obtain ⟨k, hk, rfl⟩ := List.mem_take_iff_getElem.mp hx
    have := h k (by omega) (by omega)
    rw [List.getD_eq_getElem _ _ (by omega)] at this
    simp [this]

/-- The terminal byte is the first with bit 7 clear. -/
theorem scanHit_eq_some {i k : Nat} {bytes : List Byte} :
    scanHit i bytes = some k ↔ k < 8 - i ∧ k < bytes.length ∧ highBit (bytes.getD k 0) = false ∧
      ∀ j, j < k → highBit (bytes.getD j 0) = true := by
  unfold scanHit
  rw [List.findIdx?_eq_some_iff_getElem]
  constructor
  · rintro ⟨hk, h1, h2⟩
    rw [List.length_take] at hk
    refine ⟨by omega, by omega, ?_, fun j hj => ?_⟩
    · rw [List.getD_eq_getElem _ _ (by omega)]
      simpa using h1
    · have := h2 j hj
      rw [List.getD_eq_getElem _ _ (by omega)]
      simpa using this
  · rintro ⟨h0, h1, h2, h3⟩
    refine ⟨by rw [List.length_take]; omega, ?_, fun j hj => ?_⟩
    · rw [List.getD_eq_getElem _ _ (by omega)] at h2
      simpa using h2
    · have := h3 j hj
      rw [List.getD_eq_getElem _ _ (by omega)] at this
      simpa using this

theorem terminalIndex_le (bytes : List Byte) : terminalIndex bytes ≤ 8 := by
  rw [terminalIndex_eq_scanHit]
  cases hs : scanHit 0 bytes with
  | some k => have := (scanHit_eq_some.mp hs).1; simp; omega
  | none => simp

/-- In a whole varint the terminal byte is the last. -/
theorem terminalIndex_of_isVarint {bytes : List Byte} (h : IsVarint bytes) :
    terminalIndex bytes + 1 = bytes.length := by
  obtain ⟨h1, h2, h3, h4⟩ := h
  simp only [maxLen] at *
  rw [terminalIndex_eq_scanHit]
  by_cases h9 : bytes.length < 9
  · rw [scanHit_eq_some.mpr ⟨by omega, by omega, h4 h9, fun j hj => h3 j (by omega)⟩]
    simp; omega
  · rw [scanHit_eq_none.mpr fun k hk _ => h3 k (by omega)]
    simp; omega

/-! ### Chunks (R72) -/

theorem payload_eq_mod (b : Byte) : (payload b).toNat = b.toNat % 128 := by
  rw [payload, BitVec.toNat_and]
  exact Nat.and_two_pow_sub_one_eq_mod b.toNat 7

/-- The chunk `k` places from the low end of a concatenation is the payload of the byte `k` places from the last. -/
theorem chunkSum_chunk (bytes : List Byte) : ∀ k, k < bytes.length →
    chunkSum bytes / 2 ^ (7 * k) % 2 ^ 7 = (payload (bytes.getD (bytes.length - 1 - k) 0)).toNat := by
  induction bytes using List.reverseRecOn with
  | nil => intro k h; simp at h
  | append_singleton bs b ih =>
    intro k hk
    rw [chunkSum_append_singleton]
    have hp := payload_toNat_lt b
    cases k with
    | zero => simp; omega
    | succ k =>
      have h2 : 2 ^ (7 * (k + 1)) = 128 * 2 ^ (7 * k) := by rw [Nat.mul_add, Nat.pow_add, Nat.mul_comm]
      have hd : (chunkSum bs * 128 + (payload b).toNat) / 128 = chunkSum bs := by omega
      have hl : (bs ++ [b]).length - 1 - (k + 1) = bs.length - 1 - k := by simp; omega
      simp only [List.length_append, List.length_singleton] at hk
      rw [h2, ← Nat.div_div_eq_div_mul, hd, ih k (by omega), hl, List.getD_append _ _ _ _ (by omega)]

/-! ### The bytes ENCODE builds (R131 to R135) -/

theorem highBit_flagged (c : BitVec 7) : highBit (c.zeroExtend 8 ||| contBit) = true := by revert c; decide

theorem highBit_unflagged (c : BitVec 7) : highBit (c.zeroExtend 8) = false := by revert c; decide

theorem payload_flagged (c : BitVec 7) : (payload (c.zeroExtend 8 ||| contBit)).toNat = c.toNat := by
  revert c; decide

theorem payload_unflagged (c : BitVec 7) : (payload (c.zeroExtend 8)).toNat = c.toNat := by revert c; decide

theorem flaggedChunks_getD (w : Word) (n k : Nat) (h : k < n) :
    (flaggedChunks w n).getD k 0 = (chunkAt w (n - 1 - k)).zeroExtend 8 ||| contBit := by
  induction n generalizing k with
  | zero => omega
  | succ n ih =>
    cases k with
    | zero => simp [flaggedChunks]
    | succ k =>
      rw [flaggedChunks, List.getD_cons_succ, ih k (by omega)]
      congr 3
      omega

/-- The flagged chunks of a pattern concatenate to its low bits. -/
theorem chunkSum_flaggedChunks (w : Word) (n : Nat) : chunkSum (flaggedChunks w n) = w.toNat % 2 ^ (7 * n) := by
  induction n with
  | zero => simp [flaggedChunks, chunkSum, Nat.mod_one]
  | succ n ih =>
    rw [flaggedChunks, chunkSum, ih, payload_flagged, flaggedChunks_length, chunkAt, BitVec.extractLsb'_toNat,
      Nat.shiftRight_eq_div_pow, show 7 * (n + 1) = 7 * n + 7 by omega, Nat.pow_add, Nat.mod_mul]
    ring

/-- Above the threshold ENCODE builds eight flagged chunks and the raw low byte. -/
theorem encodeBytes_above {u : Word} (h : force9Threshold < u) :
    encodeBytes u = flaggedChunks (u >>> 8) 8 ++ [u.extractLsb' 0 8] := by
  rw [encodeBytes, encodeBytesWith, needsNine, if_pos (by simpa using h)]
  exact packLoop_nine 8 _ _ (by simp)

/-- Up to the threshold ENCODE builds flagged chunks, as many as the pattern needs, and an unflagged last one. -/
theorem encodeBytes_upTo {u : Word} (h : u ≤ force9Threshold) :
    ∃ n, n ≤ 7 ∧ u.toNat < 2 ^ (7 * (n + 1)) ∧ (1 ≤ n → 2 ^ (7 * n) ≤ u.toNat) ∧
      encodeBytes u = flaggedChunks (u >>> 7) n ++ [(chunkAt u 0).zeroExtend 8] := by
  have hu : u.toNat < 2 ^ 56 := by
    have := BitVec.le_def.mp h
    simp only [force9Threshold, BitVec.toNat_ofNat] at this
    omega
  have hf : flagged [] (u.extractLsb' 0 7) = (chunkAt u 0).zeroExtend 8 := rfl
  have hsh : (u >>> 7).toNat = u.toNat / 128 := by rw [BitVec.toNat_ushiftRight, Nat.shiftRight_eq_div_pow]
  rw [encodeBytes, encodeBytesWith, needsNine, if_neg (by simpa using h), packLoop, hf]
  simp only [Bool.not_false, Bool.true_and, shiftDown, Bool.false_eq_true, if_false]
  by_cases hz : u >>> 7 = 0
  · have : u.toNat / 128 = 0 := by rw [← hsh, hz]; rfl
    exact ⟨0, by omega, by simp; omega, by simp, by rw [if_pos (by simpa using hz)]; rfl⟩
  · rw [if_neg (by simpa using hz)]
    obtain ⟨n, h1, h2, h3, h4, h5⟩ :=
      packLoop_short_tail 7 (u >>> 7) [(chunkAt u 0).zeroExtend 8] (by simp) (by rw [hsh]; omega) hz
    refine ⟨n, h2, ?_, fun _ => ?_, h5⟩
    · have : 2 ^ (7 * (n + 1)) = 2 ^ (7 * n) * 128 := by rw [Nat.mul_add, Nat.pow_add]
      omega
    · have : 2 ^ (7 * n) = 2 ^ (7 * (n - 1)) * 128 := by
        have : 7 * n = 7 * (n - 1) + 7 := by omega
        rw [this, Nat.pow_add]
      omega

end Sys2Proof.Machine
end

