-- ==== Sys2Proof/Laws/PerInstr.lean ====
section
/-! SUPPORT. The families of statements made for each instruction (LAWS.json). -/

namespace Sys2Proof.Laws

/-- The op value of each row of spec/opcode_table.json ("match" under "mask" 0x3). -/
def rowOp : Instr → BitVec 2
  | .probe _ _ => 0x0
  | .decode _ _ => 0x1
  | .encode _ => 0x2
  | .rsvd => 0x3

/-- The encoded request has the row's fixed bits. -/
def OpBits.Statement (i : Instr) : Prop := opField (encode i) = rowOp i

theorem OpBits.probe (inLen : BitVec 4) (bytes : List Byte) : OpBits.Statement (.probe inLen bytes) :=
  opField_pack _ _ _ _

theorem OpBits.decode (inLen : BitVec 4) (bytes : List Byte) : OpBits.Statement (.decode inLen bytes) :=
  opField_pack _ _ _ _

theorem OpBits.encode (inValue : Word) : OpBits.Statement (.encode inValue) := opField_pack _ _ _ _

theorem OpBits.rsvd : OpBits.Statement .rsvd := opField_pack _ _ _ _

end Sys2Proof.Laws
end

