-- ==== Sys2Proof/Tests/Slice0.lean ====
section
/-! SUPPORT. Tests of the model: ill-formed requests refused, words of the spec decoded, one or two vectors of
95_test_vectors.md for each instruction, single cycles of the channel, and a witness for the hypotheses of each statement.
Expected values are the spec's, not the model's. -/

namespace Sys2Proof.Tests

open Sys2Proof Sys2Proof.Machine

/-! ### Helpers -/

/-- The bits on `rsp` after a step or an execution. -/
def rspAfter (o : Host.Outcome State Fault Refusal) : Option Bundle :=
  match o with
  | .next s => s.rspPort
  | .fault _ => none
  | .refused _ => none

/-- A field of the next state, if there is one. -/
def after {α : Type} (o : Host.Outcome State Fault Refusal) (f : State → α) : Option α :=
  match o with
  | .next s => some (f s)
  | .fault _ => none
  | .refused _ => none

/-- A prompt block: every response at once, `req_ready` at once, room for `max` requests. -/
def prompt (max : Nat) : Timing := ⟨1, max, fun _ => 0, fun _ => 0⟩

/-- The block ready for a request, with the host about to make one move. -/
def ready (m : HostMove) : State := { State.reset with readyWait := 0, script := [m] }

/-- Row S-B3: `DECODE [0x81, 0x00]`. -/
abbrev sB3 : Bundle := 0x2049#142

/-! ### Well-formedness: each check refuses an ill-formed request -/

theorem test_probe_short_list_refused : (Instr.probe 2#4 [0x01#8]).wellFormed = false := by decide
theorem test_probe_long_list_refused : (Instr.probe 15#4 (List.replicate 10 0#8)).wellFormed = false := by decide
theorem test_decode_short_list_refused : (Instr.decode 9#4 (List.replicate 8 0#8)).wellFormed = false := by decide
theorem test_decode_long_list_refused : (Instr.decode 0#4 [0x01#8]).wellFormed = false := by decide

/-! ### Decoding: words written out from R61, R63 (rows V-P8, V-D15, V-E19, V-X2) -/

-- in_value 0 | lanes 8..3 zero | lane 2 = 7F, not supplied | lane 1 = FF | lane 0 = FF | in_len 0010 | op 00
theorem test_decode_word_probe :
    decodeReq 0b01111111_11111111_11111111_0010_00#142 = .probe 2#4 [0xFF#8, 0xFF#8] := by decide
-- lane 1 = 00 | lane 0 = 81 | in_len 0010 | op 01; in_value (bits 141:78) holds bits, which DECODE ignores
theorem test_decode_word_decode :
    decodeReq 0x048D159E26AF37BC00000000000000002049#142 = .decode 2#4 [0x81#8, 0x00#8] := by decide
-- in_value = 128, in_len = 15, lanes all FF, op 10
theorem test_decode_word_encode :
    decodeReq 0x00000000000000203FFFFFFFFFFFFFFFFFFE#142 = .encode 128#64 := by decide
-- every other field set, op 11
theorem test_decode_word_rsvd :
    decodeReq 0x3FFFFFFFFFFFFFFFC0000000000000000047#142 = .rsvd := by decide

theorem test_decode_rejects_short : decode (List.replicate 17 0#8) = .rejected .tooShort := by decide
theorem test_decode_rejects_padding :
    decode (List.replicate 17 0#8 ++ [0x40#8]) = .rejected .paddingNotZero := by decide
theorem test_decode_table_word_short_row : decodeTableWord 2 0x1 = some (.decode 0#4 []) := by decide

/-! ### The text form (R75) -/

theorem test_assemble_example : (Line.decode [0x81#8, 0x00#8] none).assemble = 0x2049#142 := by decide
-- S-L11: an eleven-byte list
theorem test_assemble_long_list : (Line.probe (List.replicate 10 0xFF#8 ++ [0x0F#8]) none).assemble =
    0x00000000000000003FFFFFFFFFFFFFFFFFEC#142 := by decide
-- V-E17: a negative int64
theorem test_assemble_negative : (Line.encodeInt (-129)).assemble = 0x3FFFFFFFFFFFFFDFC0000000000000000002#142 := by
  decide
-- S-B4 and S-E3 as R75 writes their responses
theorem test_printed_value : (Exec 0x1FE049#142).printed (decodeReq 0x1FE049#142) = .okValue 2 255 := by decide
theorem test_printed_bytes :
    (Exec 0x4040000000000000000002#142).printed (.encode 257#64) = .okBytes 2 [0x82#8, 0x01#8] := by decide

/-! ### PROBE -/

-- V-P6: the ninth byte is terminal although its bit 7 is set
theorem test_probe_ninth_byte :
    rspAfter (exec (decodeReq 0x0000000000000000203FFFFFFFFFFFFFFFE4#142) State.reset) = some 0x24#142 := by decide
-- V-P8: the terminal byte lies past the two supplied bytes
theorem test_probe_insufficient :
    rspAfter (exec (decodeReq 0x1FFFFFC8#142) State.reset) = some 0x1#142 := by decide

/-! ### DECODE -/

-- V-D12: byte 8 taken whole, -129
theorem test_decode_ninth_byte_whole :
    rspAfter (exec (decodeReq 0x00000000000000001FFFFFFFFFFFFFFFFFE5#142) State.reset) =
      some 0x3FFFFFFFFFFFFFDFC0000000000000000024#142 := by decide
-- V-D6: three chunks, 2^14
theorem test_decode_three_chunks :
    rspAfter (exec (decodeReq 0x20204D#142) State.reset) = some 0x00000000000010000000000000000000000C#142 := by
  decide

/-! ### ENCODE -/

-- V-E10: 2^56, where the unguarded early stop would give eight bytes (90_conflicts.md C1)
theorem test_encode_smallest_nine_byte :
    rspAfter (exec (.encode 0x0100000000000000#64) State.reset) =
      some 0x000000000000000000202020202020302024#142 := by decide
-- V-E5: 2^14, smallest three-byte value
theorem test_encode_three_bytes :
    rspAfter (exec (.encode 16384#64) State.reset) = some 0x20204C#142 := by decide

/-! ### RSVD -/

-- V-X2, run as the very next step after reset
theorem test_rsvd_runs_after_reset :
    rspAfter (step (State.reset.withFetchWord 144 0x3FFFFFFFFFFFFFFFC0000000000000000047)) = some 0x2#142 := by decide

/-! ### The channel, one cycle each -/

-- V-I1: accepted and, by a prompt block, answered in the cycle after
theorem test_accept_then_offer :
    rspAfter (cycle (prompt 1) (ready ⟨false, some sB3, false⟩)) = some 0x000000000000002000000000000000000008#142 := by
  decide
-- V-I3: MAX_OUTSTANDING = 1 and one request pending: the next is not accepted, and the host holds it
theorem test_full_not_accepted :
    after (cycle (prompt 1) { ready ⟨false, some 3#142, false⟩ with pending := [sB3] })
      (fun s => (s.pending, s.reqIn)) = some ([sB3], some 3#142) := by decide
-- V-I4: a reset edge discards what is pending
theorem test_reset_discards :
    after (cycle (prompt 2) { ready ⟨true, none, true⟩ with pending := [sB3], offer := some (Exec sB3) })
      (fun s => (s.pending, s.offer, s.received)) = some ([], none, []) := by decide
-- V-I5: no request transfers while `rst` is asserted
theorem test_no_accept_in_reset :
    after (cycle (prompt 1) (ready ⟨true, some sB3, true⟩)) (fun s => (s.pending, s.reqReady (prompt 1))) =
      some ([], false) := by decide
-- a response taken leaves `pending` and comes to the host
theorem test_response_taken :
    after (cycle (prompt 1) { ready ⟨false, none, true⟩ with pending := [sB3], offer := some (Exec sB3) })
      (fun s => (s.pending, s.offer, s.received)) = some ([], none, [Exec sB3]) := by decide
-- R189: `Accept` is not enabled while `pending` holds MAX_OUTSTANDING requests
theorem test_transaction_full : (Move.accept sB3).apply 1 ⟨[3#142], false, []⟩ = none := by decide

/-! ### Witnesses: for each statement with hypotheses, what meets them -/

theorem witness_OpFieldSelectsOperation :
    (0x3C#142).extractLsb' 0 2 = 0b00#2 ∧ (0x01#142).extractLsb' 0 2 = 0b01#2 ∧
    (0x02#142).extractLsb' 0 2 = 0b10#2 ∧ (0x03#142).extractLsb' 0 2 = 0b11#2 := by decide

/-- For `DecodeOfEncodeIsIdentity` and `EncodedBytesDecode`: a well-formed request of each row, `in_len` 0 and 15. -/
theorem witness_WellFormedRequests :
    (Instr.probe 15#4 (List.replicate 9 0xFF#8)).wellFormed = true ∧ (Instr.decode 0#4 []).wellFormed = true ∧
    (Instr.encode 5#64).wellFormed = true ∧ Instr.rsvd.wellFormed = true := by decide

/-- Two different bundles for each clause of `IgnoredFieldsNeverChangeResponse`. -/
theorem witness_IgnoredFieldsNeverChangeResponse :
    (opField 0x1FFFFFC8#142 = 0b00#2 ∧ opField 0x3FFC8#142 = 0b00#2 ∧
      lenField 0x1FFFFFC8#142 = lenField 0x3FFFC8#142 ∧
      ∀ i, i < min (lenField 0x1FFFFFC8#142).toNat 9 → bundleLane 0x1FFFFFC8#142 i = bundleLane 0x3FFFC8#142 i) ∧
    (opField 0x0000000000000020000000000000000000FE#142 = 0b10#2 ∧ opField 0x000000000000002000000000000000000002#142 = 0b10#2 ∧
      valueField 0x0000000000000020000000000000000000FE#142 = valueField 0x000000000000002000000000000000000002#142) ∧
    opField 0x47#142 = 0b11#2 ∧ opField 0x03#142 = 0b11#2 := by decide

theorem witness_LengthsNineToFifteenAreEqual :
    opField 0x64#142 = opField 0x7C#142 ∧ 9 ≤ (lenField 0x64#142).toNat ∧ 9 ≤ (lenField 0x7C#142).toNat ∧
    lanesField 0x64#142 = lanesField 0x7C#142 ∧ valueField 0x64#142 = valueField 0x7C#142 := by decide

theorem witness_ResponseBitsReadBack :
    Response.ofBits 0x1#142 = some ⟨.insufficientInput, 0, 0, 0⟩ ∧ Response.ofBits 0x3#142 = none := by decide

/-- For `ReinterpretationLaws` and `AssembledLinesDecode`: the bounds of int64. -/
theorem witness_Int64Bounds : IsInt64 (-9223372036854775808) ∧ IsInt64 9223372036854775807 ∧ IsInt64 0 := by
  unfold IsInt64; decide

/-- For the statements of PROBE and DECODE: `n_avail` bytes, with the terminal byte supplied and not supplied. -/
theorem witness_SuppliedBytes :
    ([] : List Byte).length = nAvail 0#4 ∧ (List.replicate 9 0xFF#8).length = nAvail 15#4 ∧
    terminalIndex (List.replicate 9 0xFF#8) < 9 ∧ ¬ terminalIndex [] < ([] : List Byte).length := by decide

theorem witness_ProbeSeesOnlyHighBits :
    [0x80#8, 0x01#8, 0xFF#8].length = nAvail 3#4 ∧ [0xFF#8, 0x7F#8, 0x00#8].length = nAvail 3#4 ∧
    ∀ i, i < 8 → i ≤ terminalIndex [0x80#8, 0x01#8, 0xFF#8] → i < nAvail 3#4 →
      highBit ([0x80#8, 0x01#8, 0xFF#8].getD i 0) = highBit ([0xFF#8, 0x7F#8, 0x00#8].getD i 0) := by decide

theorem witness_DecodeNinthByteWhole :
    (List.replicate 9 0xFF#8).length = nAvail 9#4 ∧ nAvail 9#4 = 9 ∧
    ∀ i, i < 8 → highBit ((List.replicate 9 0xFF#8).getD i 0) = true := by decide

theorem witness_ShortDecodeIsNonNegative :
    (List.replicate 7 0xFF#8 ++ [0x7F#8]).length = nAvail 8#4 ∧
    (decodeResult 8#4 (List.replicate 7 0xFF#8 ++ [0x7F#8])).status = .ok ∧
    (decodeResult 8#4 (List.replicate 7 0xFF#8 ++ [0x7F#8])).outLen.toNat ≤ 8 := by decide

theorem isVarint_one : IsVarint [0x01#8] :=
  ⟨by decide, by decide, fun k hk => by simp at hk, fun _ => by decide⟩

theorem witness_DecodeAcceptsLeadingZeroChunks :
    IsVarint [0x01#8] ∧ [0x01#8].length ≤ 7 ∧ nAvail 1#4 = [0x01#8].length ∧ nAvail 2#4 = [0x01#8].length + 1 ∧
    nAvail 9#4 = 9 := ⟨isVarint_one, by decide⟩

/-- `EncodeShortForm` at the threshold, at 127 and at 2^49, the least value of eight bytes. -/
theorem witness_EncodeShortForm :
    0x00FFFFFFFFFFFFFF#64 ≤ 0x00FFFFFFFFFFFFFF#64 ∧ (127#64).toNat ≤ 127 ∧
    2 ^ (7 * (8 - 1)) ≤ (0x0002000000000000#64).toNat ∧ (0x0002000000000000#64).toNat < 2 ^ (7 * 8) := by decide

theorem witness_EncodeNineByteForm : 0x00FFFFFFFFFFFFFF#64 < 0x0100000000000000#64 := by decide

theorem witness_EncodeAlwaysGivesVarint : (encodeBytes 0xFFFFFFFFFFFFFFFF#64).length = 9 := by decide

theorem witness_NineBytesExactlyForLargePatterns :
    IsInt64 (-1) ∧ IsInt64 72057594037927936 ∧ 0x00FFFFFFFFFFFFFF < (u64 72057594037927936).toNat ∧
    IsInt64 72057594037927935 ∧ ¬ 0x00FFFFFFFFFFFFFF < (u64 72057594037927935).toNat := by unfold IsInt64; decide

/-- `DecodeOfEncodeRoundTrip` at 2^56, the least value of the C1 range, with row V-D8's bundle. -/
theorem witness_DecodeOfEncodeRoundTrip :
    IsInt64 72057594037927936 ∧ opField 0x000000000000000000202020202020302025#142 = 0b01#2 ∧
    (encodeResult (u64 72057594037927936)).outLen.toNat ≤
      (lenField 0x000000000000000000202020202020302025#142).toNat ∧
    ∀ k, k < (encodeResult (u64 72057594037927936)).outLen.toNat →
      bundleLane 0x000000000000000000202020202020302025#142 k =
        lane (encodeResult (u64 72057594037927936)).outBytes k := by unfold IsInt64; decide

/-- For `EncodeLengthIsMinimal` and `EncodeAfterDecode`: a byte list that decodes to a value. -/
theorem witness_DecodesTo : DecodesTo [0x01#8] 1#64 := ⟨isVarint_one, fun _ => rfl⟩

/-- `EncodeAfterDecode`: a value whose output is a byte list that decodes to it. -/
theorem witness_EncodeAfterDecode :
    exec (.encode 1#64) State.reset = exec (.encode 0x1#64) State.reset ∧
    exec (.encode 1#64) State.reset = .next { State.reset with
      offer := some ⟨.ok, BitVec.ofNat 4 [0x01#8].length, laneField [0x01#8], 0⟩ } ∧
    DecodesTo [0x01#8] 1#64 := ⟨rfl, rfl, witness_DecodesTo⟩

theorem witness_ProbeAgreesWithDecode :
    opField 0x2048#142 = 0b00#2 ∧ opField sB3 = 0b01#2 ∧ lenField 0x2048#142 = lenField sB3 ∧
    lanesField 0x2048#142 = lanesField sB3 ∧ valueField 0x2048#142 = valueField sB3 := by decide

/-- `PrefixLaw` with other lanes, another `in_len` and another `in_value`. -/
theorem witness_PrefixLaw :
    opField sB3 = 0b01#2 ∧ opField 0x048D159E26AF37BC0000000000003FC0207D#142 = opField sB3 ∧
    terminalIndex (suppliedBytes sB3) < nAvail (lenField sB3) ∧
    (∀ i, i ≤ terminalIndex (suppliedBytes sB3) →
      bundleLane 0x048D159E26AF37BC0000000000003FC0207D#142 i = bundleLane sB3 i) ∧
    terminalIndex (suppliedBytes sB3) < (lenField 0x048D159E26AF37BC0000000000003FC0207D#142).toNat := by decide

theorem witness_ReservedOpIsAnsweredIllegal : opField 0x47#142 = 0b11#2 := by decide

/-- For `UnusedResponseFieldsAreZero` and `OnlyTheNamedErrors`: both kinds of status, and ops of each kind. -/
theorem witness_ResponseStatuses :
    (Exec 0x0#142).status ≠ .ok ∧ (Exec sB3).status = .ok ∧ opField 0x2#142 = 0b10#2 ∧
    (Exec 0x3#142).status = .illegalOp := by decide

theorem witness_StepRunsDecodedRequest :
    (ready ⟨true, none, true⟩).nextMove.rst = true ∧
    ((State.reset.withNextRequest sB3).nextMove.rst = false ∧
      ((State.reset.withNextRequest sB3).hostDrives.transfers Config.timing).offer = none ∧
      ((State.reset.withNextRequest sB3).hostDrives.transfers Config.timing).pending.head? = some sB3 ∧
      ((State.reset.withNextRequest sB3).hostDrives.transfers Config.timing).rspWait = 0) ∧
    (State.reset.nextMove.rst = false ∧ (State.reset.hostDrives.transfers Config.timing).pending = []) ∧
    (({ State.reset with pending := [sB3], rspWait := 1 }).hostDrives.transfers Config.timing).rspWait ≠ 0 ∧
    (({ ready ⟨false, none, false⟩ with pending := [sB3], offer := some (Exec sB3) }).hostDrives.transfers
      Config.timing).offer ≠ none := by decide

theorem witness_PlacedRequestRunsNext : decodeTableWord 144 0x2049 = some (.decode 2#4 [0x81#8, 0x00#8]) := by decide

theorem witness_ResetValues : (ready ⟨true, none, true⟩).hostDrives.inReset = true := by decide

theorem consistent_reset (t : Timing) : State.reset.Consistent t := by
  constructor <;> simp [State.reset]

theorem witness_StepKeepsConsistent :
    State.reset.Consistent Config.timing ∧ ∃ s', step State.reset = .next s' := ⟨consistent_reset _, _, rfl⟩

theorem witness_ResetEdgeDiscards : (ready ⟨true, none, true⟩).nextMove.rst = true := by decide

/-- `RequestTransferRule`: a transfer, a full `pending`, no reset. -/
theorem witness_RequestTransferRule :
    (ready ⟨false, some sB3, true⟩).accepts Config.timing = some sB3 ∧
    (ready ⟨false, some sB3, true⟩).nextMove.rst = false ∧
    Config.timing.maxOutstanding ≤
      ({ State.reset with pending := List.replicate Config.timing.maxOutstanding sB3 }).pending.length ∧
    State.reset.accepts Config.timing = none := by
  have h : Config.timing.maxOutstanding ≠ 0 := Nat.succ_ne_zero _
  refine ⟨?_, rfl, by simp, rfl⟩
  simp [State.accepts, State.transferIn, State.reqReady, State.hostDrives, State.nextMove, State.wanted, ready,
    State.reset, Nat.pos_of_ne_zero h]

theorem witness_ResponseHeldUntilTaken :
    ({ ready ⟨false, none, false⟩ with pending := [sB3], offer := some (Exec sB3) }).nextMove.rst = false ∧
    ({ ready ⟨false, none, false⟩ with pending := [sB3], offer := some (Exec sB3) }).delivers = none ∧
    ({ ready ⟨false, none, true⟩ with pending := [sB3], offer := some (Exec sB3) }).delivers = some (Exec sB3) := by
  decide

theorem consistent_offering (t : Timing) (ht : t.Legal) (m : HostMove) :
    ({ ready m with pending := [sB3], offer := some (Exec sB3) }).Consistent t := by
  have := ht.2
  constructor <;> simp [ready, State.reset]
  omega

theorem witness_OfferIsExecOfOldest :
    ({ ready ⟨false, none, false⟩ with pending := [sB3], offer := some (Exec sB3) }).Consistent Config.timing ∧
    ({ ready ⟨false, none, false⟩ with pending := [sB3], offer := some (Exec sB3) }).rspPort = some (Exec sB3).bits ∧
    State.reset.Consistent Config.timing ∧ State.reset.pending = [] :=
  ⟨consistent_offering _ (timing_legal) _, by decide, consistent_reset _, rfl⟩

/-- `ResponseWithinLatency`, both cases: a request accepted into an empty `pending`, and one that becomes the oldest. -/
theorem witness_ResponseWithinLatency :
    (prompt 2).Legal ∧
    ((ready ⟨false, some sB3, true⟩).Consistent (prompt 2) ∧ (ready ⟨false, some sB3, true⟩).NoMoreResets ∧
      (ready ⟨false, some sB3, true⟩).pending = [] ∧
      (ready ⟨false, some sB3, true⟩).accepts (prompt 2) = some sB3) ∧
    (({ ready ⟨false, none, true⟩ with pending := [sB3, 3#142], offer := some (Exec sB3) }).Consistent (prompt 2) ∧
      ({ ready ⟨false, none, true⟩ with pending := [sB3, 3#142], offer := some (Exec sB3) }).NoMoreResets ∧
      ({ ready ⟨false, none, true⟩ with pending := [sB3, 3#142], offer := some (Exec sB3) }).delivers ≠ none ∧
      ([sB3, 3#142].tail ++ (({ ready ⟨false, none, true⟩ with
        pending := [sB3, 3#142], offer := some (Exec sB3) }).accepts (prompt 2)).toList).head? = some 3#142) := by
  refine ⟨⟨by decide, by decide⟩, ⟨?_, ?_, rfl, by decide⟩, ⟨?_, ?_, by decide, by decide⟩⟩
  · constructor <;> simp [ready, State.reset]
  · simp [State.NoMoreResets, ready]
  · constructor <;> simp [ready, State.reset, prompt]
  · simp [State.NoMoreResets, ready]

/-- For `ReadyWithinFinitelyManyCycles`, `ResponsesInAcceptanceOrder` and `CycleRefinesTransactions`. -/
theorem witness_NoMoreResets :
    (ready ⟨false, some sB3, true⟩).NoMoreResets ∧
    (ready ⟨false, some sB3, true⟩).Consistent Config.timing ∧
    (ready ⟨false, some sB3, true⟩).pending.length < Config.timing.maxOutstanding :=
  ⟨by simp [State.NoMoreResets, ready], by constructor <;> simp [ready, State.reset], Nat.succ_pos _⟩

/-- `EveryRunEnds`: a legal block, a host with a request to issue and one pending. -/
theorem witness_EveryRunEnds :
    (prompt 1).Legal ∧
    ({ ready ⟨false, some sB3, false⟩ with pending := [sB3], offer := some (Exec sB3) }).Consistent (prompt 1) ∧
    ({ ready ⟨false, some sB3, false⟩ with pending := [sB3], offer := some (Exec sB3) }).NoMoreResets ∧
    ({ ready ⟨false, some sB3, false⟩ with pending := [sB3], offer := some (Exec sB3) }).planned = [sB3] :=
  ⟨⟨by decide, by decide⟩, consistent_offering _ ⟨by decide, by decide⟩ _, by simp [State.NoMoreResets, ready],
    by decide⟩

theorem witness_HostHoldsRequest :
    (ready ⟨true, some sB3, true⟩).hostDrives.reqIn = some sB3 ∧
    (ready ⟨true, some sB3, true⟩).accepts Config.timing = none := by decide

theorem witness_ErrorsDoNotStick :
    ∃ s₁ s₂, exec (decodeReq 0x0#142) State.reset = .next s₁ ∧ exec (decodeReq sB3) s₁ = .next s₂ :=
  ⟨_, _, rfl, rfl⟩

end Sys2Proof.Tests
end

/-! ## The interface state: what reset leaves, and the invariant every step keeps (10_state.md) -/

namespace Sys2Proof.Machine

variable {t : Timing} {s s' : State}

/-! ### The pins while `rst` is asserted -/

theorem reqReady_of_inReset (h : s.inReset = true) : s.reqReady t = false := by
  simp [State.reqReady, h]

theorem rspValid_of_inReset (h : s.inReset = true) : s.rspValid = false := by
  simp [State.rspValid, h]

theorem rspPort_of_inReset (h : s.inReset = true) : s.rspPort = none := by
  simp [State.rspPort, h]

/-! ### When no response is due -/

theorem due_eq_none : s.due = none ↔ s.offer ≠ none ∨ s.pending = [] ∨ s.rspWait ≠ 0 := by
  unfold State.due
  cases s.offer <;> cases s.pending <;> cases s.rspWait <;> simp

/-! ### Each move of the channel keeps the invariant -/

/-- With an empty channel only the record of received responses is left to check. -/
theorem consistent_of_empty (hp : s.pending = []) (ho : s.offer = none)
    (ha : ∀ r ∈ s.received, ∃ b, r = Exec b) : s.Consistent t where
  capacity := by simp [hp]
  offered := by simp [ho]
  quiet := fun _ => ⟨hp, ho⟩
  timely := fun _ hne => absurd hp hne
  answers := ha

/-- With `rst` = 0 the host's pins take no part in the invariant. -/
theorem State.Consistent.hostDrives (h : s.Consistent t) (hr : s.nextMove.rst = false) :
    s.hostDrives.Consistent t where
  capacity := h.capacity
  offered := h.offered
  quiet := by simp [hr]
  timely := h.timely
  answers := h.answers

theorem State.Consistent.tick (h : s.Consistent t) : (s.tick t).Consistent t where
  capacity := h.capacity
  offered := h.offered
  quiet := h.quiet
  timely := h.timely
  answers := h.answers

theorem State.Consistent.countDown (h : s.Consistent t) : s.countDown.Consistent t where
  capacity := h.capacity
  offered := h.offered
  quiet := h.quiet
  timely := fun ho hp => Nat.lt_of_le_of_lt (Nat.sub_le _ _) (h.timely ho hp)
  answers := h.answers

theorem State.Consistent.respond (h : s.Consistent t) {b : Bundle} (hb : s.pending.head? = some b) :
    (s.respond (Exec b)).Consistent t where
  capacity := h.capacity
  offered := by
    rintro r ⟨⟩
    exact ⟨b, hb, rfl⟩
  quiet := fun hr => by simp [(h.quiet hr).1] at hb
  timely := fun ho => by simp at ho
  answers := h.answers

/-- The response that leaves was `Exec` of a request, so the record stays one of answers; the next wait is fresh. -/
theorem State.Consistent.take (ht : t.Legal) (h : s.Consistent t) {r : Response} (hr : s.offer = some r) :
    (s.take t r).Consistent t where
  capacity := by
    have := h.capacity
    simp only [State.take_pending, List.length_tail]
    omega
  offered := by simp
  quiet := fun hin => by simp [(h.quiet hin).1]
  timely := fun _ _ => Nat.mod_lt _ ht.1
  answers := by
    intro q hq
    rcases List.mem_append.mp hq with hold | hnew
    · exact h.answers q hold
    · obtain ⟨b, -, rfl⟩ := h.offered r hr
      exact ⟨b, List.mem_singleton.mp hnew⟩

/-- A request at the back leaves the oldest one as it was; entering an empty `pending`, it gets a fresh wait. -/
theorem State.Consistent.accept (ht : t.Legal) (h : s.Consistent t) (hin : s.inReset = false)
    (hroom : s.pending.length < t.maxOutstanding) (b : Bundle) : (s.accept t b).Consistent t where
  capacity := by simpa using hroom
  offered := by
    intro r hr
    obtain ⟨c, hc, rfl⟩ := h.offered r hr
    exact ⟨c, by simp [hc], rfl⟩
  quiet := by simp [hin]
  timely := by
    intro ho _
    by_cases hp : s.pending = []
    · simpa [hp] using Nat.mod_lt _ ht.1
    · simpa [hp] using h.timely ho hp
  answers := h.answers

theorem State.Consistent.takeIf (ht : t.Legal) (h : s.Consistent t) {o : Option Response}
    (ho : ∀ r, o = some r → s.offer = some r) : (s.takeIf t o).Consistent t := by
  cases o with
  | none => exact h
  | some r => exact h.take ht (ho r rfl)

theorem State.Consistent.acceptIf (ht : t.Legal) (h : s.Consistent t) {o : Option Bundle}
    (ho : ∀ b, o = some b → s.inReset = false ∧ s.pending.length < t.maxOutstanding) :
    (s.acceptIf t o).Consistent t := by
  cases o with
  | none => exact h
  | some b =>
    obtain ⟨hin, hroom⟩ := ho b rfl
    exact h.accept ht hin hroom b

@[simp] theorem takeIf_inReset (o : Option Response) : (s.takeIf t o).inReset = s.inReset := by
  cases o <;> rfl

theorem takeIf_pending_length_le (o : Option Response) : (s.takeIf t o).pending.length ≤ s.pending.length := by
  cases o <;> simp [State.takeIf]

/-- Both transfers are decided by the pins before the edge: a response that leaves was on offer, and a request enters
only where there was room. -/
theorem State.Consistent.transfers (ht : t.Legal) (h : s.Consistent t) : (s.transfers t).Consistent t := by
  refine (h.tick.takeIf ht fun r hr => ?_).acceptIf ht fun b hb => ?_
  · obtain ⟨-, -, hoffer⟩ := (transferOut_eq_some s).mp hr
    exact hoffer
  · obtain ⟨-, hready⟩ := (transferIn_eq_some t s).mp hb
    obtain ⟨hin, hroom, -⟩ := (reqReady_eq_true t s).mp hready
    exact ⟨by simpa using hin, Nat.lt_of_le_of_lt (takeIf_pending_length_le _) hroom⟩

/-- A cycle keeps the invariant under all legal parameters, by the three cases of a cycle. -/
theorem State.Consistent.cycle (ht : t.Legal) (h : s.Consistent t) (hs : cycle t s = .next s') :
    s'.Consistent t := by
  obtain ⟨u, hu, hcases⟩ := cycle_cases t s
  obtain rfl : u = s' := Host.Outcome.next.inj (hu.symm.trans hs)
  rcases hcases with ⟨-, rfl⟩ | ⟨hr, b, hdue, rfl⟩ | ⟨hr, -, rfl⟩
  case inl => exact consistent_of_empty rfl rfl h.answers
  case inr.inl =>
    obtain ⟨-, hhead, -⟩ := (due_eq_some _).mp hdue
    exact ((h.hostDrives hr).transfers ht).respond hhead
  case inr.inr => exact ((h.hostDrives hr).transfers ht).countDown

/-! ### The obligations -/

/-- Settles O39: the step is a cycle under legal parameters, and each move of a cycle keeps the invariant. -/
theorem stepKeepsConsistent : Obligations.StepKeepsConsistent := by
  unfold Obligations.StepKeepsConsistent
  intro s s' h hs
  exact h.cycle timing_legal hs

/-- Settles O33: the response is `answer`, whatever the state, and `respond` writes no other field. -/
theorem execIsPure : Obligations.ExecIsPure := by
  unfold Obligations.ExecIsPure
  intro i
  refine ⟨answer i, fun s => ⟨s.respond (answer i), exec_eq i s, ?_⟩⟩
  simp

/-- Settles O34: the three clauses are the three cases of a cycle, told apart by `rst` and by what is due. -/
theorem stepRunsDecodedRequest : Obligations.StepRunsDecodedRequest := by
  unfold Obligations.StepRunsDecodedRequest
  intro s
  refine ⟨fun hr => cycle_of_reset _ s hr, fun hr => ⟨fun b ho hp hw => ?_, fun hnot => ?_⟩⟩
  · exact cycle_of_due _ s hr ((due_eq_some _).mpr ⟨ho, hp, hw⟩)
  · exact cycle_of_not_due _ s hr (due_eq_none.mpr hnot)

/-- Settles O37: nothing is pending or on offer in `State.reset`, and `rst` = 1 forces each pin in any state. -/
theorem resetValues : Obligations.ResetValues := by
  unfold Obligations.ResetValues
  exact ⟨rfl, rfl, rfl, fun s h => ⟨reqReady_of_inReset h, rspValid_of_inReset h, rspPort_of_inReset h⟩⟩

/-- Settles O38: the channel is empty at reset, and so is the record of responses (notes/assumptions/5.md). -/
theorem resetIsConsistent : Obligations.ResetIsConsistent := by
  unfold Obligations.ResetIsConsistent
  exact consistent_of_empty rfl rfl (by simp [State.reset])

end Sys2Proof.Machine

/-! ## The request and response channel: transfers, order, latency, and the end of a run (20_memory.md) -/

namespace Sys2Proof.Machine

variable {t : Timing} {s s' : State}

/-! ### A cycle in terms of what it accepts and delivers -/

/-- What a cycle with `rst` = 0 makes of a state: `pending`, the host's pins and the record by the two transfers of
the cycle (R49, R50), and the response on offer by what is due after them. -/
structure CycleWithoutReset (t : Timing) (s s' : State) : Prop where
  inReset : s'.inReset = false
  pending : s'.pending = (if s.delivers.isSome then s.pending.tail else s.pending) ++ (s.accepts t).toList
  reqIn : s'.reqIn = if (s.accepts t).isSome then none else s.hostDrives.reqIn
  queued : s'.queued = s.hostDrives.queued
  script : s'.script = s.script.tail
  received : s'.received = s.received ++ s.delivers.toList
  readyWait : s'.readyWait = if s.readyWait = 0 then t.readyDelay s.clock else s.readyWait - 1
  offer : ((s.hostDrives.transfers t).due = none ∧ s'.offer = (s.hostDrives.transfers t).offer ∧
      s'.rspWait = (s.hostDrives.transfers t).rspWait - 1) ∨
    ∃ b, (s.hostDrives.transfers t).due = some b ∧ s'.offer = some (Exec b)

theorem exists_cycleWithoutReset (t : Timing) (hr : s.nextMove.rst = false) :
    ∃ s', cycle t s = .next s' ∧ CycleWithoutReset t s s' := by
  obtain ⟨s', hs, hin, hpending, hreqIn, hqueued, hscript, hreceived, hwait, hoffer⟩ := cycle_of_no_reset t s hr
  refine ⟨s', hs, hin, ?_, ?_, hqueued, hscript, ?_, ?_, hoffer⟩
  · rw [hpending, transfers_pending]; rfl
  · rw [hreqIn, transfers_reqIn]; rfl
  · rw [hreceived, transfers_received]; rfl
  · rw [hwait, transfers_readyWait]; rfl

theorem accepts_eq_some {b : Bundle} :
    s.accepts t = some b ↔ s.hostDrives.reqIn = some b ∧ s.hostDrives.reqReady t = true :=
  transferIn_eq_some t s.hostDrives

theorem delivers_eq_some {r : Response} :
    s.delivers = some r ↔ s.nextMove.rst = false ∧ s.nextMove.rspReady = true ∧ s.offer = some r :=
  transferOut_eq_some s.hostDrives

theorem hostDrives_reqReady_eq_true : s.hostDrives.reqReady t = true ↔
    s.nextMove.rst = false ∧ s.pending.length < t.maxOutstanding ∧ s.readyWait = 0 :=
  reqReady_eq_true t s.hostDrives

theorem rspValid_eq_true : s.rspValid = true ↔ s.inReset = false ∧ s.offer.isSome = true := by
  simp [State.rspValid]

theorem rspPort_of_not_inReset (h : s.inReset = false) : s.rspPort = s.offer.map Response.bits := by
  simp [State.rspPort, h]

theorem rspPort_eq_some {bits : Bundle} (h : s.rspPort = some bits) : ∃ r, s.offer = some r ∧ bits = r.bits := by
  cases hr : s.inReset with
  | true => simp [rspPort_of_inReset hr] at h
  | false =>
    rw [rspPort_of_not_inReset hr, Option.map_eq_some_iff] at h
    obtain ⟨r, ho, rfl⟩ := h
    exact ⟨r, ho, rfl⟩

/-- A response on offer that is not taken stays on offer: none is due beside it. -/
theorem CycleWithoutReset.offer_of_held (h : CycleWithoutReset t s s') {r : Response} (ho : s.offer = some r)
    (hd : s.delivers = none) : s'.offer = some r := by
  have hkeep : (s.hostDrives.transfers t).offer = some r := by
    have hout : s.hostDrives.transferOut = none := hd
    simp [transfers_offer, hout, ho]
  rcases h.offer with ⟨-, hoffer, -⟩ | ⟨b, hdue, -⟩
  · rw [hoffer, hkeep]
  · obtain ⟨hnone, -, -⟩ := (due_eq_some _).mp hdue
    simp [hkeep] at hnone

/-! ### The host's plan while `rst` stays 0 -/

theorem State.NoMoreResets.nextMove_rst (h : s.NoMoreResets) : s.nextMove.rst = false := by
  unfold State.nextMove
  cases hs : s.script with
  | nil => rfl
  | cons m rest => exact h m (by simp [hs])

theorem CycleWithoutReset.noMoreResets (h : CycleWithoutReset t s s') (hn : s.NoMoreResets) : s'.NoMoreResets :=
  fun m hm => hn m (List.mem_of_mem_tail (h.script ▸ hm))

theorem nextMove_of_script_nil (h : s.script = []) : s.nextMove = HostMove.idle := by
  simp [State.nextMove, h]

/-- Driving the pins moves requests from the host's plan to its pins, and changes nothing of their order. -/
theorem hostDrives_planned (hr : s.nextMove.rst = false) : s.hostDrives.planned = s.planned := by
  have hmove : s.nextMove.present.toList ++ s.script.tail.filterMap (·.present) =
      s.script.filterMap (·.present) := by
    cases hs : s.script with
    | nil => simp [State.nextMove, hs, HostMove.idle]
    | cons m rest => cases hp : m.present <;> simp [State.nextMove, hs, hp]
  have hpins : s.hostDrives.reqIn.toList ++ s.hostDrives.queued = s.reqIn.toList ++ s.wanted := by
    cases hq : s.reqIn with
    | some b => simp [hr, hq]
    | none => cases hw : s.wanted <;> simp [hr, hq, hw]
  rw [State.planned, hpins, State.hostDrives_script, State.wanted, List.append_assoc, List.append_assoc, hmove,
    ← List.append_assoc, State.planned]

/-- What a cycle accepts is the front of the plan, and the rest of the plan stays (R49, R185). -/
theorem CycleWithoutReset.planned (h : CycleWithoutReset t s s') (hr : s.nextMove.rst = false) :
    s.planned = (s.accepts t).toList ++ s'.planned := by
  rw [← hostDrives_planned hr, State.planned, State.planned, h.reqIn, h.queued, h.script]
  cases ha : s.accepts t with
  | none => simp
  | some b =>
    obtain ⟨hreqIn, -⟩ := accepts_eq_some.mp ha
    rw [hreqIn]; rfl

/-! ### Responses in the order of acceptance (R51) -/

/-- The responses the host has received, followed by those it is owed for what is pending. -/
def State.ledger (s : State) : List Response := s.received ++ s.pending.map Exec

/-- The response that leaves is `Exec` of the head that leaves with it. -/
theorem State.Consistent.pending_of_delivers (hc : s.Consistent t) {r : Response} (hd : s.delivers = some r) :
    ∃ b, s.pending = b :: s.pending.tail ∧ r = Exec b := by
  obtain ⟨-, -, ho⟩ := delivers_eq_some.mp hd
  obtain ⟨b, hb, rfl⟩ := hc.offered r ho
  exact ⟨b, List.eq_cons_of_mem_head? hb, rfl⟩

/-- A delivery moves a response along within the ledger; only an acceptance adds to it, at its end. -/
theorem CycleWithoutReset.ledger (h : CycleWithoutReset t s s') (hc : s.Consistent t) :
    s'.ledger = s.ledger ++ (s.accepts t).toList.map Exec := by
  rw [State.ledger, State.ledger, h.received, h.pending, List.map_append]
  cases hd : s.delivers with
  | none => simp
  | some r =>
    obtain ⟨b, hpending, rfl⟩ := hc.pending_of_delivers hd
    rw [hpending]
    simp

theorem acceptedDuring_succ (h : cycle t s = .next s') (n : Nat) :
    acceptedDuring t (n + 1) s = (s.accepts t).toList ++ acceptedDuring t n s' := by
  rw [acceptedDuring, h]

/-- The machine's own run is the run under its own parameters. -/
theorem coreRun_eq_runCycles (n : Nat) (s : State) : Sys2Proof.core.run n s = runCycles Config.timing n s := rfl

theorem runCycles_ledger (ht : t.Legal) (n : Nat) : ∀ s : State, s.Consistent t → s.NoMoreResets →
    ∃ s', runCycles t n s = .next s' ∧ s'.ledger = s.ledger ++ (acceptedDuring t n s).map Exec := by
  induction n with
  | zero => intro s _ _; exact ⟨s, rfl, by simp [acceptedDuring]⟩
  | succ n ih =>
    intro s hc hn
    obtain ⟨u, hu, hcycle⟩ := exists_cycleWithoutReset t hn.nextMove_rst
    obtain ⟨s', hrun, hledger⟩ := ih u (hc.cycle ht hu) (hcycle.noMoreResets hn)
    refine ⟨s', (runCycles_succ hu n).trans hrun, ?_⟩
    rw [hledger, hcycle.ledger hc, acceptedDuring_succ hu, List.map_append, List.append_assoc]

/-! ### From the oldest request to its response (R50) -/

/-- `b` is the oldest request, and its response is not on offer but comes after `w` more edges. -/
structure State.Awaits (s : State) (b : Bundle) (w : Nat) : Prop where
  offer : s.offer = none
  head : s.pending.head? = some b
  wait : s.rspWait = w

/-- While the response is awaited nothing is delivered, and what is accepted goes behind the oldest request. -/
theorem State.Awaits.transfers {b : Bundle} {w : Nat} (h : s.Awaits b w) (t : Timing) :
    (s.hostDrives.transfers t).Awaits b w := by
  have hout : s.hostDrives.transferOut = none := by
    simp [State.transferOut, h.offer]
  have hne : s.pending ≠ [] := by
    intro hnil
    simpa [hnil] using h.head
  refine ⟨?_, ?_, ?_⟩
  · simp [transfers_offer, hout, h.offer]
  · simp [transfers_pending, hout, h.head]
  · rw [transfers_rspWait_same _ _ (by simp [hout, hne]), State.hostDrives_rspWait, h.wait]

/-- What follows the transfers in a cycle does not touch `pending`. -/
theorem CycleWithoutReset.pending_eq_transfers (h : CycleWithoutReset t s s') :
    s'.pending = (s.hostDrives.transfers t).pending := by
  rw [h.pending, transfers_pending]; rfl

/-- With the wait over after the transfers, the cycle puts the response on offer. -/
theorem CycleWithoutReset.offer_of_awaits_zero (h : CycleWithoutReset t s s') {b : Bundle}
    (ha : (s.hostDrives.transfers t).Awaits b 0) : s'.offer = some (Exec b) := by
  have hdue : (s.hostDrives.transfers t).due = some b := (due_eq_some _).mpr ⟨ha.offer, ha.head, ha.wait⟩
  rcases h.offer with ⟨hnone, -, -⟩ | ⟨c, hc, hoffer⟩
  · simp [hnone] at hdue
  · rw [hdue, Option.some.injEq] at hc
    rw [hoffer, hc]

/-- With the wait not over, the cycle makes it one edge shorter. -/
theorem CycleWithoutReset.awaits_of_awaits_succ (h : CycleWithoutReset t s s') {b : Bundle} {w : Nat}
    (ha : (s.hostDrives.transfers t).Awaits b (w + 1)) : s'.Awaits b w := by
  rcases h.offer with ⟨-, hoffer, hwait⟩ | ⟨c, hdue, -⟩
  · exact ⟨hoffer.trans ha.offer, by rw [h.pending_eq_transfers, ha.head], by rw [hwait, ha.wait]; rfl⟩
  · obtain ⟨-, -, hzero⟩ := (due_eq_some _).mp hdue
    simp [ha.wait] at hzero

/-- A response awaited for `w` edges after the transfers of a cycle is on offer `w` cycles after that cycle. -/
theorem runCycles_of_awaits {b : Bundle} (w : Nat) : ∀ s : State, s.NoMoreResets →
    (s.hostDrives.transfers t).Awaits b w →
    ∃ s', runCycles t (w + 1) s = .next s' ∧ s'.pending.head? = some b ∧ s'.rspPort = some (Exec b).bits := by
  induction w with
  | zero =>
    intro s hn ha
    obtain ⟨s', hs, hcycle⟩ := exists_cycleWithoutReset t hn.nextMove_rst
    refine ⟨s', runCycles_succ hs 0, ?_, ?_⟩
    · rw [hcycle.pending_eq_transfers, ha.head]
    · rw [rspPort_of_not_inReset hcycle.inReset, hcycle.offer_of_awaits_zero ha]
      rfl
  | succ w ih =>
    intro s hn ha
    obtain ⟨u, hu, hcycle⟩ := exists_cycleWithoutReset t hn.nextMove_rst
    obtain ⟨s', hrun, hs'⟩ := ih u (hcycle.noMoreResets hn) ((hcycle.awaits_of_awaits_succ ha).transfers t)
    exact ⟨s', (runCycles_succ hu _).trans hrun, hs'⟩

theorem State.Consistent.offer_of_pending_nil (hc : s.Consistent t) (hp : s.pending = []) : s.offer = none := by
  cases ho : s.offer with
  | none => rfl
  | some r =>
    obtain ⟨b, hb, -⟩ := hc.offered r ho
    simp [hp] at hb

/-- A request that becomes the oldest in a cycle awaits its response from there, for a wait within `LATENCY`. -/
theorem State.Consistent.awaits_of_becomes_oldest (hc : s.Consistent t) {b : Bundle}
    (h : s.pending = [] ∧ s.accepts t = some b ∨
      s.delivers ≠ none ∧ (s.pending.tail ++ (s.accepts t).toList).head? = some b) :
    (s.hostDrives.transfers t).Awaits b (t.responseDelay (s.clock + 1) % t.latency) := by
  rcases h with ⟨hp, ha⟩ | ⟨hd, hb⟩
  case inl =>
    have hin : s.hostDrives.transferIn t = some b := ha
    have ho := hc.offer_of_pending_nil hp
    refine ⟨?_, ?_, transfers_rspWait_fresh _ _ (.inr ⟨hp, by simp [hin]⟩)⟩
    · simp [transfers_offer, ho]
    · simp [transfers_pending, hp, hin]
  case inr =>
    have hout : s.hostDrives.transferOut.isSome = true := Option.isSome_iff_ne_none.mpr hd
    refine ⟨?_, ?_, transfers_rspWait_fresh _ _ (.inl hout)⟩
    · simp [transfers_offer, hout]
    · rw [transfers_pending, if_pos hout]
      exact hb

/-! ### The wait for `req_ready` (R52) -/

/-- While the block waits, no request enters. -/
theorem accepts_of_readyWait_ne_zero (h : s.readyWait ≠ 0) : s.accepts t = none := by
  cases ha : s.accepts t with
  | none => rfl
  | some b =>
    obtain ⟨-, hready⟩ := accepts_eq_some.mp ha
    obtain ⟨-, -, hzero⟩ := hostDrives_reqReady_eq_true.mp hready
    exact absurd hzero h

/-- So room in `pending` stays until the wait is over, and then `req_ready` is 1. -/
theorem runCycles_reqReady (w : Nat) : ∀ s : State, s.NoMoreResets → s.pending.length < t.maxOutstanding →
    s.readyWait = w → ∃ s', runCycles t w s = .next s' ∧ s'.hostDrives.reqReady t = true := by
  induction w with
  | zero =>
    intro s hn hroom hw
    exact ⟨s, rfl, hostDrives_reqReady_eq_true.mpr ⟨hn.nextMove_rst, hroom, hw⟩⟩
  | succ w ih =>
    intro s hn hroom hw
    obtain ⟨u, hu, hcycle⟩ := exists_cycleWithoutReset t hn.nextMove_rst
    have haccepts : s.accepts t = none := accepts_of_readyWait_ne_zero (by omega)
    have hroom' : u.pending.length < t.maxOutstanding := by
      rw [hcycle.pending, haccepts]
      split <;> simp <;> omega
    have hwait : u.readyWait = w := by
      rw [hcycle.readyWait]; simp [hw]
    obtain ⟨s', hrun, hready⟩ := ih u (hcycle.noMoreResets hn) hroom' hwait
    exact ⟨s', (runCycles_succ hu w).trans hrun, hready⟩

/-! ### Every run ends (R190) -/

/-- Transfers still to come: each planned request is accepted and answered, each pending one answered. -/
def State.transfersLeft (s : State) : Nat := 2 * s.planned.length + s.pending.length

/-- Cycles until the idle host sees the next transfer: until `req_ready` if nothing is pending, else until the response
is on offer. -/
def State.cyclesToTransfer (s : State) : Nat :=
  if s.pending = [] then s.readyWait else if s.offer = none then s.rspWait + 1 else 0

/-- What is left of a run: the host's moves, then the transfers, then the wait for the next one. -/
def State.workLeft (s : State) : ℕ ×ₗ ℕ ×ₗ ℕ :=
  toLex (s.script.length, toLex (s.transfersLeft, s.cyclesToTransfer))

/-- Each transfer of a cycle takes one off those that are left. -/
theorem CycleWithoutReset.transfersLeft (h : CycleWithoutReset t s s') (hc : s.Consistent t)
    (hr : s.nextMove.rst = false) :
    s'.transfersLeft + s.delivers.toList.length + (s.accepts t).toList.length = s.transfersLeft := by
  have hplanned := congrArg List.length (h.planned hr)
  have hpending := congrArg List.length h.pending
  simp only [List.length_append] at hplanned hpending
  unfold State.transfersLeft
  cases hd : s.delivers with
  | none =>
    simp only [hd, Option.isSome_none, Bool.false_eq_true, if_false] at hpending
    simp only [Option.toList_none, List.length_nil]
    omega
  | some r =>
    obtain ⟨b, hcons, -⟩ := hc.pending_of_delivers hd
    have hlen : s.pending.length = s.pending.tail.length + 1 := congrArg List.length hcons
    simp only [hd, Option.isSome_some, if_true] at hpending
    simp only [Option.toList_some, List.length_singleton]
    omega

/-- A host with no move left takes what is on offer, so without a delivery nothing was on offer. -/
theorem offer_of_idle_of_delivers_none (hs : s.script = []) (hd : s.delivers = none) : s.offer = none := by
  cases ho : s.offer with
  | none => rfl
  | some r =>
    have : s.delivers = some r := delivers_eq_some.mpr (by simp [nextMove_of_script_nil hs, HostMove.idle, ho])
    simp [hd] at this

/-- A host with no move left and requests to issue drives one, so with an empty `pending` only the block's own wait
keeps it from being accepted. -/
theorem readyWait_ne_zero_of_idle (ht : t.Legal) (hs : s.script = []) (hp : s.pending = []) (hover : ¬ s.RunOver)
    (ha : s.accepts t = none) : s.readyWait ≠ 0 := by
  intro hzero
  have hmove := nextMove_of_script_nil hs
  have hready : s.hostDrives.reqReady t = true :=
    hostDrives_reqReady_eq_true.mpr ⟨by simp [hmove, HostMove.idle], by rw [hp]; exact ht.2, hzero⟩
  cases hreq : s.hostDrives.reqIn with
  | some b => simp [accepts_eq_some.mpr ⟨hreq, hready⟩] at ha
  | none =>
    refine hover ⟨hp, ?_⟩
    simpa [hmove, HostMove.idle, State.wanted, hs] using hreq

/-- A cycle of the idle host without a transfer brings the next one closer. -/
theorem CycleWithoutReset.cyclesToTransfer_lt (h : CycleWithoutReset t s s') (ht : t.Legal) (hs : s.script = [])
    (hover : ¬ s.RunOver) (hd : s.delivers = none) (ha : s.accepts t = none) :
    s'.cyclesToTransfer < s.cyclesToTransfer := by
  have hpending : s'.pending = s.pending := by simp [h.pending, hd, ha]
  unfold State.cyclesToTransfer
  rw [hpending]
  by_cases hp : s.pending = []
  · have hwait := readyWait_ne_zero_of_idle ht hs hp hover ha
    rw [if_pos hp, if_pos hp, h.readyWait, if_neg hwait]
    omega
  · have ho := offer_of_idle_of_delivers_none hs hd
    have hawaits : (s.hostDrives.transfers t).Awaits (s.pending.head hp) s.rspWait :=
      State.Awaits.transfers ⟨ho, List.head?_eq_some_head hp, rfl⟩ t
    rw [if_neg hp, if_neg hp, if_pos ho]
    cases hw : s.rspWait with
    | zero => simp [h.offer_of_awaits_zero (hw ▸ hawaits)]
    | succ w =>
      have hnext := h.awaits_of_awaits_succ (hw ▸ hawaits)
      rw [if_pos hnext.offer, hnext.wait]
      omega

/-- Until the run is over, every cycle leaves less to do. -/
theorem CycleWithoutReset.workLeft_lt (h : CycleWithoutReset t s s') (ht : t.Legal) (hc : s.Consistent t)
    (hr : s.nextMove.rst = false) (hover : ¬ s.RunOver) : s'.workLeft < s.workLeft := by
  unfold State.workLeft
  rw [h.script, Prod.Lex.toLex_lt_toLex, Prod.Lex.toLex_lt_toLex]
  have hleft := h.transfersLeft hc hr
  cases hs : s.script with
  | cons m rest => left; simp
  | nil =>
    refine .inr ⟨rfl, ?_⟩
    cases hd : s.delivers with
    | some r => left; simp [hd] at hleft; omega
    | none =>
      cases ha : s.accepts t with
      | some b => left; simp [ha] at hleft; omega
      | none => exact .inr ⟨by simpa [hd, ha] using hleft, h.cyclesToTransfer_lt ht hs hover hd ha⟩

theorem planned_of_runOver (h : s.RunOver) : s.planned = [] := by
  obtain ⟨-, hreqIn, hqueued, hscript⟩ := h
  simpa [State.planned, hreqIn, hqueued] using hscript

/-- From every consistent state the run comes to its end, with the ledger grown by the responses of what was planned. -/
theorem runCycles_ends (ht : t.Legal) (s : State) (hc : s.Consistent t) (hn : s.NoMoreResets) :
    ∃ n s', runCycles t n s = .next s' ∧ s'.RunOver ∧ s'.ledger = s.ledger ++ s.planned.map Exec := by
  induction hw : s.workLeft using WellFoundedLT.induction generalizing s with
  | ind w ih =>
    by_cases hover : s.RunOver
    · exact ⟨0, s, rfl, hover, by simp [planned_of_runOver hover]⟩
    · have hr := hn.nextMove_rst
      obtain ⟨u, hu, hcycle⟩ := exists_cycleWithoutReset t hr
      obtain ⟨n, s', hrun, hend, hledger⟩ :=
        ih u.workLeft (hw ▸ hcycle.workLeft_lt ht hc hr hover) u (hc.cycle ht hu) (hcycle.noMoreResets hn) rfl
      refine ⟨n + 1, s', (runCycles_succ hu n).trans hrun, hend, ?_⟩
      rw [hledger, hcycle.ledger hc, hcycle.planned hr, List.map_append, List.append_assoc]

/-! ### The obligations -/

/-- Settles O46: the work left falls with every cycle until the run is over, and then the ledger is what was received. -/
theorem everyRunEnds : Obligations.EveryRunEnds := by
  unfold Obligations.EveryRunEnds
  intro t s ht hc hn
  obtain ⟨n, s', hrun, hover, hledger⟩ := runCycles_ends ht s hc hn
  refine ⟨n, s', hrun, hover, ?_⟩
  obtain ⟨hpending, -⟩ := hover
  simpa [State.ledger, hpending] using hledger

/-- Settles O47: by induction on the number of cycles, each of which adds to the ledger what it accepts. -/
theorem responsesInAcceptanceOrder : Obligations.ResponsesInAcceptanceOrder := by
  unfold Obligations.ResponsesInAcceptanceOrder
  intro n s hc hn
  obtain ⟨s', hrun, hledger⟩ := runCycles_ledger timing_legal n s hc hn
  refine ⟨s', (coreRun_eq_runCycles n s).trans hrun, ?_⟩
  simpa [State.ledger] using hledger

/-- Settles O41: the pins decide the transfer, and the cycle appends what is accepted. -/
theorem requestTransferRule : Obligations.RequestTransferRule := by
  unfold Obligations.RequestTransferRule
  refine fun s => ⟨fun b => ?_, fun hfull => ?_, fun hr => ?_⟩
  · rw [accepts_eq_some]
    exact ⟨fun ⟨hreq, hready⟩ => ⟨(hostDrives_reqReady_eq_true.mp hready).1, hreq, hready⟩, And.right⟩
  · rw [Bool.eq_false_iff, ne_eq, hostDrives_reqReady_eq_true]
    rintro ⟨-, hroom, -⟩
    omega
  · obtain ⟨s', hs, hcycle⟩ := exists_cycleWithoutReset Config.timing hr
    refine ⟨s', hs, hcycle.pending, fun b hb => ?_, fun hnone => ?_⟩
    · rw [hcycle.reqIn, hb]; rfl
    · rw [hcycle.reqIn, hnone]; rfl

/-- Settles O42: a held response blocks the next, and a delivery is one cycle's removal of the head. -/
theorem responseHeldUntilTaken : Obligations.ResponseHeldUntilTaken := by
  unfold Obligations.ResponseHeldUntilTaken
  refine fun s => ⟨fun r => ?_, fun r hr ho hd => ?_, fun r hd => ?_⟩
  · rw [delivers_eq_some, rspValid_eq_true]
    constructor
    · rintro ⟨hr, hready, ho⟩
      exact ⟨⟨hr, by simp [ho]⟩, hready, ho⟩
    · rintro ⟨⟨hr, -⟩, hready, ho⟩
      exact ⟨hr, hready, ho⟩
  · obtain ⟨s', hs, hcycle⟩ := exists_cycleWithoutReset Config.timing hr
    have ho' := hcycle.offer_of_held ho hd
    refine ⟨s', hs, ho', ?_, ?_, ?_⟩
    · exact rspValid_eq_true.mpr ⟨hcycle.inReset, by simp [ho']⟩
    · rw [rspPort_of_not_inReset hcycle.inReset, ho']; rfl
    · simp [hcycle.received, hd]
  · obtain ⟨hr, -, -⟩ := delivers_eq_some.mp hd
    obtain ⟨s', hs, hcycle⟩ := exists_cycleWithoutReset Config.timing hr
    exact ⟨s', hs, by simp [hcycle.received, hd], by simp [hcycle.pending, hd]⟩

/-- Settles O43: by the invariant's clause on the response on offer; the last clause ties `Exec` to `exec`. -/
theorem offerIsExecOfOldest : Obligations.OfferIsExecOfOldest := by
  unfold Obligations.OfferIsExecOfOldest
  refine fun s hc => ⟨fun hp => ?_, fun bits hport => ?_, fun b u => exec_eq (decodeReq b) u⟩
  · have ho := hc.offer_of_pending_nil hp
    simp [State.rspValid, State.rspPort, ho]
  · obtain ⟨r, ho, rfl⟩ := rspPort_eq_some hport
    obtain ⟨b, hb, rfl⟩ := hc.offered r ho
    exact ⟨b, hb, rfl⟩

/-- Settles O44: the request that becomes the oldest draws a wait below `LATENCY`, and every cycle counts it down. -/
theorem responseWithinLatency : Obligations.ResponseWithinLatency := by
  unfold Obligations.ResponseWithinLatency
  intro t s b ht hc hn holdest
  obtain ⟨s', hrun, hhead, hport⟩ := runCycles_of_awaits _ s hn (hc.awaits_of_becomes_oldest holdest)
  exact ⟨_, s', Nat.succ_pos _, Nat.mod_lt _ ht.1, hrun, hhead, hport⟩

/-- Settles O45: the block's wait is a number, and it runs down while there is room. -/
theorem readyWithinFinitelyManyCycles : Obligations.ReadyWithinFinitelyManyCycles := by
  unfold Obligations.ReadyWithinFinitelyManyCycles
  intro s hn hroom
  obtain ⟨s', hrun, hready⟩ := runCycles_reqReady s.readyWait s hn hroom rfl
  exact ⟨s.readyWait, s', (coreRun_eq_runCycles _ s).trans hrun, hready⟩

end Sys2Proof.Machine

/-! ## Bundles, their bytes, and the text form (30_encoding.md) -/

namespace Sys2Proof

open Machine

variable {b c : Bundle}

/-! ### The request of a bundle, by its op bits (R63) -/

theorem decodeReq_of_probe (h : opField b = 0b00#2) : decodeReq b = .probe (lenField b) (suppliedBytes b) := by
  simp [decodeReq, h]

theorem decodeReq_of_decode (h : opField b = 0b01#2) : decodeReq b = .decode (lenField b) (suppliedBytes b) := by
  simp [decodeReq, h]

theorem decodeReq_of_encode (h : opField b = 0b10#2) : decodeReq b = .encode (valueField b) := by
  simp [decodeReq, h]

theorem decodeReq_of_rsvd (h : opField b = 0b11#2) : decodeReq b = .rsvd := by
  simp [decodeReq, h]

theorem opField_cases (b : Bundle) :
    opField b = 0b00#2 ∨ opField b = 0b01#2 ∨ opField b = 0b10#2 ∨ opField b = 0b11#2 := by
  generalize opField b = op
  revert op
  decide

/-- The decoder reads `n_avail` bytes and no more (R65). -/
theorem decodeReq_wellFormed (b : Bundle) : (decodeReq b).wellFormed = true := by
  rcases opField_cases b with h | h | h | h
  · simp [decodeReq_of_probe h, Instr.wellFormed]
  · simp [decodeReq_of_decode h, Instr.wellFormed]
  · rw [decodeReq_of_encode h]; rfl
  · rw [decodeReq_of_rsvd h]; rfl

/-! ### The supplied bytes of two bundles -/

/-- Bundles with the same `n_avail` and the same lanes below it supply the same bytes (R64, R65). -/
theorem suppliedBytes_congr (hn : nAvail (lenField b) = nAvail (lenField c))
    (hl : ∀ i, i < nAvail (lenField b) → bundleLane b i = bundleLane c i) : suppliedBytes b = suppliedBytes c := by
  unfold suppliedBytes
  rw [← hn]
  exact List.map_congr_left fun i hi => hl i (List.mem_range.mp hi)

theorem bundleLane_congr (h : lanesField b = lanesField c) {i : Nat} (hi : i < 9) :
    bundleLane b i = bundleLane c i := by
  rw [bundleLane_eq b hi, bundleLane_eq c hi, h]

/-! ### The request of an encoded request -/

/-- What a packed byte list supplies: its bytes up to `n_avail`, then zero (R75). -/
theorem suppliedBytes_pack_laneField (op : BitVec 2) (len : BitVec 4) (bytes : List Byte) (value : Word) :
    suppliedBytes (pack op len (laneField bytes) value) =
      (List.range (nAvail len)).map fun i => bytes.getD i 0 := by
  unfold suppliedBytes
  rw [lenField_pack]
  refine List.map_congr_left fun i hi => ?_
  have h9 : i < 9 := Nat.lt_of_lt_of_le (List.mem_range.mp hi) (nAvail_le len)
  rw [bundleLane_eq _ h9, lanesField_pack, lane_laneField _ h9]

theorem decodeReq_encode_probe (len : BitVec 4) (bytes : List Byte) :
    decodeReq (encode (.probe len bytes)) = .probe len ((List.range (nAvail len)).map fun i => bytes.getD i 0) := by
  rw [decodeReq_of_probe (Laws.OpBits.probe len bytes), encode, lenField_pack, suppliedBytes_pack_laneField]

theorem decodeReq_encode_decode (len : BitVec 4) (bytes : List Byte) :
    decodeReq (encode (.decode len bytes)) = .decode len ((List.range (nAvail len)).map fun i => bytes.getD i 0) := by
  rw [decodeReq_of_decode (Laws.OpBits.decode len bytes), encode, lenField_pack, suppliedBytes_pack_laneField]

theorem decodeReq_encode_encode (u : Word) : decodeReq (encode (.encode u)) = .encode u := by
  rw [decodeReq_of_encode (Laws.OpBits.encode u), encode, valueField_pack]

theorem decodeReq_encode_rsvd : decodeReq (encode .rsvd) = .rsvd :=
  decodeReq_of_rsvd Laws.OpBits.rsvd

/-- A list of `n_avail` bytes needs no zero put after it: a bundle it is packed into supplies just the list. -/
theorem range_map_getD_eq_self {len : BitVec 4} {bytes : List Byte} (h : bytes.length = nAvail len) :
    ((List.range (nAvail len)).map fun i => bytes.getD i 0) = bytes :=
  (suppliedBytes_pack_laneField 0 len bytes 0).symm.trans (suppliedBytes_pack _ _ _ h)

theorem decodeReq_encode {i : Instr} (h : i.wellFormed = true) : decodeReq (encode i) = i := by
  cases i with
  | probe len bytes => rw [decodeReq_encode_probe, range_map_getD_eq_self (eq_of_beq h)]
  | decode len bytes => rw [decodeReq_encode_decode, range_map_getD_eq_self (eq_of_beq h)]
  | encode u => exact decodeReq_encode_encode u
  | rsvd => exact decodeReq_encode_rsvd

/-! ### The byte decoder (the byte layout is the model's choice, notes/assumptions/1.md) -/

theorem decode_eq_tooShort {bytes : List Byte} : decode bytes = .rejected .tooShort ↔ bytes.length < 18 := by
  unfold decode
  split_ifs with hlen hpad <;> simpa using hlen

theorem decode_eq_paddingNotZero {bytes : List Byte} :
    decode bytes = .rejected .paddingNotZero ↔ 18 ≤ bytes.length ∧ 2 ^ 142 ≤ leNat (bytes.take 18) := by
  unfold decode
  split_ifs with hlen hpad
  · exact ⟨nofun, fun ⟨hge, _⟩ => absurd hlen (Nat.not_lt.mpr hge)⟩
  · exact ⟨nofun, fun ⟨_, hge⟩ => absurd hpad (Nat.not_lt.mpr hge)⟩
  · exact ⟨fun _ => ⟨Nat.not_lt.mp hlen, Nat.not_lt.mp hpad⟩, fun _ => rfl⟩

/-- The 18 bytes of a number below `2 ^ 144`, with any bytes after them, decode to the request of its 142 low bits,
unless a bit above those is set. -/
theorem decode_leBytes_append {v : Nat} (hv : v < 2 ^ 144) (rest : List Byte) :
    decode (leBytes bundleBytes v ++ rest) =
      if v < 2 ^ 142 then .ok (decodeReq (BitVec.ofNat 142 v)) rest else .rejected .paddingNotZero := by
  have hlen : ¬ (leBytes bundleBytes v ++ rest).length < bundleBytes := by simp
  have hnat : leNat ((leBytes bundleBytes v ++ rest).take bundleBytes) = v := by
    rw [List.take_left' (leBytes_length _ _), leNat_leBytes]
    exact Nat.mod_eq_of_lt hv
  rw [decode, if_neg hlen, hnat, List.drop_left' (leBytes_length _ _)]

theorem decode_bytesOfBundle_append (b : Bundle) (rest : List Byte) :
    decode (bytesOfBundle b ++ rest) = .ok (decodeReq b) rest := by
  have hb : b.toNat < 2 ^ 142 := b.isLt
  rw [bytesOfBundle, decode_leBytes_append (by omega), if_pos hb, BitVec.ofNat_toNat, BitVec.setWidth_eq]

/-- What the table decoder answers is the request of the word's bits. -/
theorem decodeTableWord_eq_some {nbits w : Nat} {i : Instr} (h : decodeTableWord nbits w = some i) :
    i = decodeReq (BitVec.ofNat 142 (w % 2 ^ nbits)) := by
  unfold decodeTableWord at h
  by_cases hv : w % 2 ^ nbits < 2 ^ 144
  · have hdec := decode_leBytes_append hv []
    rw [List.append_nil] at hdec
    rw [if_pos hv, hdec] at h
    by_cases hpad : w % 2 ^ nbits < 2 ^ 142
    · rw [if_pos hpad] at h
      exact (Option.some.inj h).symm
    · rw [if_neg hpad] at h
      cases h
  · rw [if_neg hv] at h
    cases h

end Sys2Proof

namespace Sys2Proof.Machine

/-! ### The bits of a response (R62, R68) -/

theorem Status.ofCode_code (st : Status) : Status.ofCode st.code = some st := by
  cases st <;> rfl

theorem Status.code_of_ofCode {c : BitVec 2} {st : Status} (h : Status.ofCode c = some st) : st.code = c := by
  revert c st
  decide

theorem Status.ofCode_eq_none {c : BitVec 2} : Status.ofCode c = none ↔ c = 0b11#2 := by
  revert c
  decide

theorem Response.ofBits_bits (r : Response) : Response.ofBits r.bits = some r := by
  simp [Response.ofBits, Response.bits, Status.ofCode_code]

/-- A bundle has no bit outside the four fields, so the bits of what is read from it are the bundle. -/
theorem Response.bits_of_ofBits {r : Response} {b : Bundle} (h : Response.ofBits b = some r) : r.bits = b := by
  unfold Response.ofBits at h
  cases hst : Status.ofCode (opField b) with
  | none => simp [hst] at h
  | some st =>
    obtain rfl : (⟨st, lenField b, lanesField b, valueField b⟩ : Response) = r := by simpa [hst] using h
    rw [Response.bits, Status.code_of_ofCode hst, pack_fields]

theorem Response.ofBits_eq_none {b : Bundle} : Response.ofBits b = none ↔ opField b = 0b11#2 := by
  rw [← Status.ofCode_eq_none, Response.ofBits]
  cases Status.ofCode (opField b) <;> simp

/-! ### What PROBE and DECODE can tell of `in_len` (R64) -/

theorem supplied_congr {m n : BitVec 4} (h : nAvail m = nAvail n) (bytes : List Byte) :
    supplied m bytes = supplied n bytes := by
  rw [supplied, supplied, h]

theorem answer_probe_congr {m n : BitVec 4} (h : nAvail m = nAvail n) (bytes : List Byte) :
    answer (.probe m bytes) = answer (.probe n bytes) := by
  rw [answer, answer, probeResult, probeResult, supplied_congr h]

theorem answer_decode_congr {m n : BitVec 4} (h : nAvail m = nAvail n) (bytes : List Byte) :
    answer (.decode m bytes) = answer (.decode n bytes) := by
  rw [answer, answer, decodeResult, decodeResult, supplied_congr h]

section
variable {b c : Bundle}

/-- PROBE and DECODE read `n_avail` and the supplied bytes. -/
theorem Exec_congr_of_suppliedBytes (hop : opField b = opField c) (h : opField b = 0b00#2 ∨ opField b = 0b01#2)
    (hn : nAvail (lenField b) = nAvail (lenField c)) (hbytes : suppliedBytes b = suppliedBytes c) :
    Exec b = Exec c := by
  unfold Exec
  rcases h with h | h
  · rw [decodeReq_of_probe h, decodeReq_of_probe (hop ▸ h), hbytes, answer_probe_congr hn]
  · rw [decodeReq_of_decode h, decodeReq_of_decode (hop ▸ h), hbytes, answer_decode_congr hn]

/-- ENCODE reads the value. -/
theorem Exec_congr_of_valueField (hop : opField b = opField c) (h : opField b = 0b10#2)
    (hvalue : valueField b = valueField c) : Exec b = Exec c := by
  rw [Exec, Exec, decodeReq_of_encode h, decodeReq_of_encode (hop ▸ h), hvalue]

/-- The reserved request reads nothing. -/
theorem Exec_congr_of_rsvd (hop : opField b = opField c) (h : opField b = 0b11#2) : Exec b = Exec c := by
  rw [Exec, Exec, decodeReq_of_rsvd h, decodeReq_of_rsvd (hop ▸ h)]

theorem exec_decodeReq (b : Bundle) (s : State) : exec (decodeReq b) s = .next (s.respond (Exec b)) :=
  exec_eq (decodeReq b) s

theorem exec_decodeReq_congr (h : Exec b = Exec c) (s : State) : exec (decodeReq b) s = exec (decodeReq c) s := by
  rw [exec_decodeReq, exec_decodeReq, h]

end

/-- All of `in_len` 9 to 15 supply nine bytes. -/
theorem nAvail_of_nine_le {n : BitVec 4} (h : 9 ≤ n.toNat) : nAvail n = 9 := Nat.min_eq_right h

/-! ### Which fields an answer uses (R69) -/

theorem probeScan_range {bytes : List Byte} {n : Nat} (h : probeScan 0 bytes = some n) : 1 ≤ n ∧ n ≤ 9 := by
  rw [probeScan_eq bytes 0 (by omega)] at h
  cases hs : scanHit 0 bytes with
  | some k =>
    obtain ⟨hk, -⟩ := scanHit_eq_some.mp hs
    simp only [hs, Option.some.injEq] at h
    omega
  | none =>
    simp only [hs, Option.ite_none_right_eq_some, Option.some.injEq] at h
    omega

/-- DECODE consumes as many bytes as PROBE counts. -/
theorem decodeScan_range {bytes : List Byte} {n : Nat} {acc : Word} (h : decodeScan 0 0 bytes = some (n, acc)) :
    1 ≤ n ∧ n ≤ 9 := by
  obtain ⟨hprobe, -⟩ := decodeScan_eq bytes 0 0 (by omega) (by simp)
  rw [h] at hprobe
  exact probeScan_range hprobe.symm

theorem encodeBytes_length_range (u : Word) : 1 ≤ (encodeBytes u).length ∧ (encodeBytes u).length ≤ 9 := by
  by_cases h : force9Threshold < u
  · simp [encodeBytes_above h]
  · obtain ⟨n, hn, -, -, hbytes⟩ := encodeBytes_upTo (BitVec.not_lt.mp h)
    simp only [hbytes, List.length_append, flaggedChunks_length, List.length_singleton]
    omega

/-- An answer is `OK` with a length from 1 to 9, or an error response: the code, and zero in every other field. -/
theorem answer_cases (i : Instr) :
    (∃ n bytes value, 1 ≤ n ∧ n ≤ 9 ∧ answer i = okResponse n bytes value) ∨
      ∃ code, code ≠ .ok ∧ answer i = errorResponse code := by
  cases i with
  | probe len bytes =>
    rw [answer, probeResult]
    cases h : probeScan 0 (supplied len bytes) with
    | some n => exact .inl ⟨n, [], 0, (probeScan_range h).1, (probeScan_range h).2, rfl⟩
    | none => exact .inr ⟨.insufficientInput, by decide, rfl⟩
  | decode len bytes =>
    rw [answer, decodeResult]
    cases h : decodeScan 0 0 (supplied len bytes) with
    | some r => exact .inl ⟨r.1, [], r.2, (decodeScan_range h).1, (decodeScan_range h).2, rfl⟩
    | none => exact .inr ⟨.insufficientInput, by decide, rfl⟩
  | encode u =>
    exact .inl ⟨_, _, 0, (encodeBytes_length_range u).1, (encodeBytes_length_range u).2, rfl⟩
  | rsvd => exact .inr ⟨.illegalOp, by decide, rfl⟩

theorem okResponse_outLen_toNat {n : Nat} (hn : n ≤ 9) (bytes : List Byte) (value : Word) :
    (okResponse n bytes value).outLen.toNat = n := by
  simp only [okResponse, BitVec.toNat_ofNat]
  omega

theorem answer_of_status_ne_ok {i : Instr} (h : (answer i).status ≠ .ok) :
    answer i = errorResponse (answer i).status := by
  rcases answer_cases i with ⟨n, bytes, value, -, -, ha⟩ | ⟨code, -, ha⟩
  · simp [ha, okResponse] at h
  · rw [ha]; rfl

theorem answer_outLen_of_ok {i : Instr} (h : (answer i).status = .ok) :
    1 ≤ (answer i).outLen.toNat ∧ (answer i).outLen.toNat ≤ 9 := by
  rcases answer_cases i with ⟨n, bytes, value, h1, h9, ha⟩ | ⟨code, hcode, ha⟩
  · rw [ha, okResponse_outLen_toNat h9]
    exact ⟨h1, h9⟩
  · rw [ha] at h
    exact absurd h hcode

theorem probeResult_outBytes (len : BitVec 4) (bytes : List Byte) : (probeResult len bytes).outBytes = 0 := by
  unfold probeResult
  split <;> rfl

theorem probeResult_outValue (len : BitVec 4) (bytes : List Byte) : (probeResult len bytes).outValue = 0 := by
  unfold probeResult
  split <;> rfl

theorem decodeResult_outBytes (len : BitVec 4) (bytes : List Byte) : (decodeResult len bytes).outBytes = 0 := by
  unfold decodeResult
  split <;> rfl

/-- The lanes past the bytes ENCODE built are zero. -/
theorem lane_encodeResult_of_outLen_le (u : Word) {k : Nat} (hk : (encodeResult u).outLen.toNat ≤ k) (h9 : k < 9) :
    lane (encodeResult u).outBytes k = 0 := by
  rw [encodeResult, okResponse_outLen_toNat (encodeBytes_length_range u).2] at hk
  rw [encodeResult, okResponse, lane_laneField _ h9, List.getD_eq_default _ _ hk]

/-! ### A placed request (notes/assumptions/9.md) -/

/-- The request that is placed is awaited, with its wait over. -/
theorem withNextRequest_awaits (s : State) (b : Bundle) : (s.withNextRequest b).Awaits b 0 := ⟨rfl, rfl, rfl⟩

theorem State.Awaits.transfers_received {s : State} {b : Bundle} {w : Nat} (h : s.Awaits b w) (t : Timing) :
    (s.hostDrives.transfers t).received = s.received := by
  simp [Machine.transfers_received, State.transferOut, h.offer]

/-- With `rst` = 0, the cycle in which the wait of the oldest request is over runs that request (R50). -/
theorem State.Awaits.cycle_zero {s : State} {b : Bundle} (h : s.Awaits b 0) (hr : s.nextMove.rst = false)
    (t : Timing) : cycle t s = exec (decodeReq b) (s.hostDrives.transfers t) := by
  obtain ⟨ho, hp, hw⟩ := h.transfers t
  exact cycle_of_due t s hr ((due_eq_some _).mpr ⟨ho, hp, hw⟩)

/-! ### The obligations -/

/-- Settles O3: each row's fields are read back from the bundle they are packed into. -/
theorem decodeOfEncodeIsIdentity : Obligations.DecodeOfEncodeIsIdentity := by
  unfold Obligations.DecodeOfEncodeIsIdentity
  exact fun i h => decodeReq_encode h

/-- Settles O2: one case of the decoder for each value of the op bits; the fields stand at the positions of R61. -/
theorem opFieldSelectsOperation : Obligations.OpFieldSelectsOperation := by
  unfold Obligations.OpFieldSelectsOperation
  exact fun b => ⟨decodeReq_of_probe, decodeReq_of_decode, decodeReq_of_encode, decodeReq_of_rsvd⟩

/-- Settles O4: the 18 bytes of a bundle read back as the bundle. -/
theorem encodedBytesDecode : Obligations.EncodedBytesDecode := by
  unfold Obligations.EncodedBytesDecode
  intro i rest h
  rw [decode_bytesOfBundle_append, decodeReq_encode h]

/-- Settles O5: the decoder of bundles is total, and the byte decoder has two guards. -/
theorem decoderRejectsOnlyNonBundles : Obligations.DecoderRejectsOnlyNonBundles := by
  unfold Obligations.DecoderRejectsOnlyNonBundles
  exact ⟨decodeReq_wellFormed, fun _ => decode_eq_tooShort, fun _ => decode_eq_paddingNotZero⟩

/-- Settles O6: the bundles agree on all that their op reads, so they get one answer. -/
theorem ignoredFieldsNeverChangeResponse : Obligations.IgnoredFieldsNeverChangeResponse := by
  unfold Obligations.IgnoredFieldsNeverChangeResponse
  refine fun b c hop => ⟨fun h hlen hlanes => ?_, fun h hvalue => ?_, fun h => ?_⟩
  · have hn : nAvail (lenField b) = nAvail (lenField c) := congrArg nAvail hlen
    exact exec_decodeReq_congr (Exec_congr_of_suppliedBytes hop h hn (suppliedBytes_congr hn hlanes))
  · exact exec_decodeReq_congr (Exec_congr_of_valueField hop h hvalue)
  · exact exec_decodeReq_congr (Exec_congr_of_rsvd hop h)

/-- Settles O7: both bundles supply the same nine bytes, and no other part of `in_len` is read. -/
theorem lengthsNineToFifteenAreEqual : Obligations.LengthsNineToFifteenAreEqual := by
  unfold Obligations.LengthsNineToFifteenAreEqual
  intro b c hop hb hc hlanes hvalue
  have hn : nAvail (lenField b) = nAvail (lenField c) := (nAvail_of_nine_le hb).trans (nAvail_of_nine_le hc).symm
  have hbytes : suppliedBytes b = suppliedBytes c :=
    suppliedBytes_congr hn fun i hi => bundleLane_congr hlanes (Nat.lt_of_lt_of_le hi (nAvail_le _))
  refine exec_decodeReq_congr ?_
  rcases opField_cases b with h | h | h | h
  · exact Exec_congr_of_suppliedBytes hop (.inl h) hn hbytes
  · exact Exec_congr_of_suppliedBytes hop (.inr h) hn hbytes
  · exact Exec_congr_of_valueField hop h hvalue
  · exact Exec_congr_of_rsvd hop h

/-- Settles O9: the status codes and the four fields are each read back, and 0b11 names no status. -/
theorem responseBitsReadBack : Obligations.ResponseBitsReadBack := by
  unfold Obligations.ResponseBitsReadBack
  exact fun r b => ⟨r.ofBits_bits, Response.bits_of_ofBits, Response.ofBits_eq_none⟩

/-- Settles O10: a line assembles to the encoded request it says, well formed or not. -/
theorem assembledLinesDecode : Obligations.AssembledLinesDecode := by
  unfold Obligations.AssembledLinesDecode
  refine ⟨fun _ _ => decodeReq_encode_probe _ _, fun _ _ => decodeReq_encode_decode _ _, fun bytes => ?_,
    fun _ _ => decodeReq_encode_encode _, decodeReq_encode_encode, decodeReq_encode_rsvd⟩
  simp only [lineLen, BitVec.toNat_ofNat]
  omega

/-- Settles O31: an answer is `OK` or an error response, and each unit fills only the fields it returns. -/
theorem unusedResponseFieldsAreZero : Obligations.UnusedResponseFieldsAreZero := by
  unfold Obligations.UnusedResponseFieldsAreZero
  refine fun b s => ⟨Exec b, exec_decodeReq b s, ?_, fun h => ?_, ?_, fun h => ?_, answer_outLen_of_ok⟩
  · rintro (h | h)
    · rw [Exec, decodeReq_of_probe h]
      exact probeResult_outBytes _ _
    · rw [Exec, decodeReq_of_decode h]
      exact decodeResult_outBytes _ _
  · rw [Exec, decodeReq_of_encode h]
    exact fun k => lane_encodeResult_of_outLen_le _
  · rintro (h | h)
    · rw [Exec, decodeReq_of_probe h]
      exact probeResult_outValue _ _
    · rw [Exec, decodeReq_of_encode h]
      rfl
  · rw [Exec, answer_of_status_ne_ok h]
    exact ⟨rfl, rfl, rfl⟩

/-- Settles O1: four closed words, each evaluated by the decoder. -/
theorem tableWordsDecode : Obligations.TableWordsDecode := by
  unfold Obligations.TableWordsDecode
  exact ⟨by decide, by decide, by decide, by decide⟩

/-- Settles O8: each field is read back from its place in the bundle. -/
theorem responseFieldPositions : Obligations.ResponseFieldPositions := by
  unfold Obligations.ResponseFieldPositions
  refine fun r => ⟨opField_pack _ _ _ _, lenField_pack _ _ _ _, lanesField_pack _ _ _ _, fun k hk => ?_,
    valueField_pack _ _ _ _⟩
  exact (bundleLane_eq r.bits hk).trans (congrArg (lane · k) (lanesField_pack _ _ _ _))

/-- Settles O35: the placed request is awaited with its wait over, and the host is idle in the coming cycle. -/
theorem placedRequestRunsNext : Obligations.PlacedRequestRunsNext := by
  unfold Obligations.PlacedRequestRunsNext
  intro s nbits w i h
  obtain rfl := decodeTableWord_eq_some h
  have hawaits := withNextRequest_awaits s (BitVec.ofNat 142 (w % 2 ^ nbits))
  obtain ⟨hoffer, hhead, -⟩ := hawaits.transfers Config.timing
  exact ⟨_, hawaits.cycle_zero rfl _, hawaits.transfers_received _, hoffer, hhead⟩

end Sys2Proof.Machine

/-! ## PROBE (40_length_probe.md) -/

namespace Sys2Proof.Machine

variable {bytes other : List Byte}

/-! ### The terminal index, by whether the scan finds a clear high bit (R71) -/

theorem terminalIndex_of_scanHit_some {k : Nat} (h : scanHit 0 bytes = some k) : terminalIndex bytes = k := by
  rw [terminalIndex_eq_scanHit, h, Option.getD_some]

theorem terminalIndex_of_scanHit_none (h : scanHit 0 bytes = none) : terminalIndex bytes = 8 := by
  rw [terminalIndex_eq_scanHit, h, Option.getD_none]

/-- The terminal byte is not supplied exactly when fewer than nine bytes are, each with bit 7 set (R103). -/
theorem length_le_terminalIndex_iff : bytes.length ≤ terminalIndex bytes ↔
    bytes.length < 9 ∧ ∀ i, i < bytes.length → highBit (bytes.getD i 0) = true := by
  cases hs : scanHit 0 bytes with
  | some k =>
    obtain ⟨-, hk, hclear, -⟩ := scanHit_eq_some.mp hs
    rw [terminalIndex_of_scanHit_some hs]
    refine ⟨fun hle => absurd hk (Nat.not_lt.mpr hle), fun ⟨_, hset⟩ => ?_⟩
    exact absurd (hset k hk) (Bool.eq_false_iff.mp hclear)
  | none =>
    rw [terminalIndex_of_scanHit_none hs]
    exact ⟨fun hle => ⟨by omega, fun i hi => scanHit_eq_none.mp hs i (by omega) hi⟩, fun ⟨hlt, _⟩ => by omega⟩

/-- Byte lists of one length that agree on bit 7 up to the terminal byte of the one have one terminal index; a ninth
byte has no part in it. -/
theorem terminalIndex_congr (hlen : bytes.length = other.length)
    (h : ∀ i, i < 8 → i ≤ terminalIndex bytes → i < bytes.length →
      highBit (bytes.getD i 0) = highBit (other.getD i 0)) :
    terminalIndex bytes = terminalIndex other := by
  cases hs : scanHit 0 bytes with
  | some k =>
    obtain ⟨h8, hk, hclear, hset⟩ := scanHit_eq_some.mp hs
    rw [terminalIndex_of_scanHit_some hs] at h ⊢
    refine (terminalIndex_of_scanHit_some (scanHit_eq_some.mpr ⟨h8, hlen ▸ hk, ?_, fun j hj => ?_⟩)).symm
    · rw [← h k h8 le_rfl hk, hclear]
    · rw [← h j (by omega) hj.le (by omega), hset j hj]
  | none =>
    rw [terminalIndex_of_scanHit_none hs] at h ⊢
    refine (terminalIndex_of_scanHit_none (scanHit_eq_none.mpr fun i h8 hi => ?_)).symm
    rw [← h i h8 (Nat.le_of_lt h8) (hlen ▸ hi), scanHit_eq_none.mp hs i h8 (hlen ▸ hi)]

/-! ### The answer of PROBE (R101, R102) -/

/-- The whole scan answers the terminal index plus one, if that byte is there. -/
theorem probeScan_zero_eq (bytes : List Byte) : probeScan 0 bytes =
    if terminalIndex bytes < bytes.length then some (terminalIndex bytes + 1) else none := by
  rw [probeScan_eq bytes 0 (Nat.zero_le 8)]
  cases hs : scanHit 0 bytes with
  | some k =>
    obtain ⟨-, hk, -⟩ := scanHit_eq_some.mp hs
    simp [terminalIndex_of_scanHit_some hs, hk]
  | none => simp [terminalIndex_of_scanHit_none hs]

section
variable {n m : BitVec 4}

theorem probeResult_of_supplied (hlen : bytes.length = nAvail n) (h : terminalIndex bytes < bytes.length) :
    probeResult n bytes = okResponse (terminalIndex bytes + 1) [] 0 := by
  rw [probeResult, supplied_eq hlen, probeScan_zero_eq, if_pos h]

theorem probeResult_of_not_supplied (hlen : bytes.length = nAvail n) (h : ¬ terminalIndex bytes < bytes.length) :
    probeResult n bytes = errorResponse .insufficientInput := by
  rw [probeResult, supplied_eq hlen, probeScan_zero_eq, if_neg h]

/-- PROBE's answer is a function of the terminal index and the number of supplied bytes. -/
theorem probeResult_congr (hlen : bytes.length = nAvail n) (hother : other.length = nAvail m)
    (hn : nAvail n = nAvail m) (hT : terminalIndex bytes = terminalIndex other) :
    probeResult n bytes = probeResult m other := by
  have hlens : bytes.length = other.length := hlen.trans (hn.trans hother.symm)
  by_cases h : terminalIndex bytes < bytes.length
  · rw [probeResult_of_supplied hlen h, probeResult_of_supplied hother (by omega), hT]
  · rw [probeResult_of_not_supplied hlen h, probeResult_of_not_supplied hother (by omega)]

theorem probeResult_status_eq_insufficientInput_iff (hlen : bytes.length = nAvail n) :
    (probeResult n bytes).status = .insufficientInput ↔ bytes.length ≤ terminalIndex bytes := by
  by_cases h : terminalIndex bytes < bytes.length
  · rw [probeResult_of_supplied hlen h]
    exact ⟨nofun, fun hle => absurd h (Nat.not_lt.mpr hle)⟩
  · rw [probeResult_of_not_supplied hlen h]
    exact ⟨fun _ => Nat.not_lt.mp h, fun _ => rfl⟩

end

theorem probeResult_status_cases (n : BitVec 4) (bytes : List Byte) :
    (probeResult n bytes).status = .ok ∨ (probeResult n bytes).status = .insufficientInput := by
  unfold probeResult
  split
  · exact .inl rfl
  · exact .inr rfl

theorem exec_probe (n : BitVec 4) (bytes : List Byte) (s : State) :
    exec (.probe n bytes) s = .next { s with offer := some (probeResult n bytes) } :=
  exec_eq (.probe n bytes) s

/-! ### The obligations -/

/-- Settles O11: the scan finds the terminal byte of R71 or runs past the supplied bytes. -/
theorem probeGivesTerminalLength : Obligations.ProbeGivesTerminalLength := by
  unfold Obligations.ProbeGivesTerminalLength
  intro n bytes s hlen
  rw [exec_probe]
  by_cases h : terminalIndex bytes < bytes.length
  · rw [if_pos h, probeResult_of_supplied hlen h]
    rfl
  · rw [if_neg h, probeResult_of_not_supplied hlen h]
    rfl

/-- Settles O12: PROBE fails when the terminal byte is not supplied, and that byte is missing only where fewer than
nine bytes are supplied and each has bit 7 set. -/
theorem probeFailsExactlyWithoutTerminal : Obligations.ProbeFailsExactlyWithoutTerminal := by
  unfold Obligations.ProbeFailsExactlyWithoutTerminal
  intro n bytes s hlen
  refine ⟨_, exec_probe n bytes s, ?_, (probeResult_status_cases n bytes).resolve_right⟩
  rw [probeResult_status_eq_insufficientInput_iff hlen, length_le_terminalIndex_iff, hlen]

/-- Settles O13: the two inputs have one terminal index and one `n_avail`, and PROBE's answer depends on nothing
else. -/
theorem probeSeesOnlyHighBits : Obligations.ProbeSeesOnlyHighBits := by
  unfold Obligations.ProbeSeesOnlyHighBits
  intro n m bytes other hlen hother hn h s
  have hT : terminalIndex bytes = terminalIndex other :=
    terminalIndex_congr (hlen.trans (hn.trans hother.symm)) fun i h8 hi hb => h i h8 hi (hlen ▸ hb)
  rw [exec_probe, exec_probe, probeResult_congr hlen hother hn hT]

end Sys2Proof.Machine

/-! ## DECODE (41_decoder.md) -/

namespace Sys2Proof.Machine

variable {bytes : List Byte}

/-! ### The pattern of a varint (R72) -/

theorem varintPattern_of_terminalIndex_le_seven (h : terminalIndex bytes ≤ 7) :
    varintPattern bytes = chunkSum (bytes.take (terminalIndex bytes + 1)) := if_pos h

theorem varintPattern_of_terminalIndex_eq_eight (h : terminalIndex bytes = 8) :
    varintPattern bytes = chunkSum (bytes.take 8) * 2 ^ 8 + (bytes.getD 8 0).toNat :=
  if_neg (by omega)

/-- The loop from the first byte on, with an empty accumulator, builds the pattern of R72. -/
theorem scanPattern_zero (bytes : List Byte) : scanPattern 0 0 bytes = varintPattern bytes := by
  unfold scanPattern
  cases hs : scanHit 0 bytes with
  | some k =>
    obtain ⟨hk, -⟩ := scanHit_eq_some.mp hs
    have hT := terminalIndex_of_scanHit_some hs
    simp [varintPattern_of_terminalIndex_le_seven (show terminalIndex bytes ≤ 7 by omega), hT]
  | none => simp [varintPattern_of_terminalIndex_eq_eight (terminalIndex_of_scanHit_none hs)]

theorem chunkSum_take_lt (bytes : List Byte) (n : Nat) : chunkSum (bytes.take n) < 2 ^ (7 * n) :=
  (chunkSum_lt _).trans_le
    (Nat.pow_le_pow_right Nat.two_pos (Nat.mul_le_mul_left 7 (List.length_take_le n bytes)))

/-- A varint that ends in a chunk of seven bits has `7L` bits (R114). -/
theorem varintPattern_lt_of_terminalIndex_le_seven (h : terminalIndex bytes ≤ 7) :
    varintPattern bytes < 2 ^ (7 * (terminalIndex bytes + 1)) := by
  rw [varintPattern_of_terminalIndex_le_seven h]
  exact chunkSum_take_lt bytes _

/-- No varint has a bit past bit 63: at most eight chunks of seven bits and a last byte of eight (R112). -/
theorem varintPattern_lt (bytes : List Byte) : varintPattern bytes < 2 ^ 64 := by
  by_cases h : terminalIndex bytes ≤ 7
  · exact (varintPattern_lt_of_terminalIndex_le_seven h).trans_le
      (Nat.pow_le_pow_right Nat.two_pos (by omega))
  · have hchunks := chunkSum_take_lt bytes 8
    have hlast := (bytes.getD 8 0).isLt
    rw [varintPattern_of_terminalIndex_eq_eight (by have := terminalIndex_le bytes; omega)]
    omega

/-- As a 64-bit value the pattern loses no bit. -/
theorem varintPattern_toNat (bytes : List Byte) :
    (BitVec.ofNat 64 (varintPattern bytes)).toNat = varintPattern bytes :=
  Nat.mod_eq_of_lt (varintPattern_lt bytes)

/-! ### The answer of DECODE (R111, R115) -/

/-- The whole scan answers where PROBE's does, with the pattern of the varint. -/
theorem decodeScan_zero_eq (bytes : List Byte) : decodeScan 0 0 bytes =
    if terminalIndex bytes < bytes.length
      then some (terminalIndex bytes + 1, BitVec.ofNat 64 (varintPattern bytes)) else none := by
  obtain ⟨hlen, hvalue⟩ := decodeScan_eq bytes 0 0 (Nat.zero_le 8) Nat.one_pos
  rw [probeScan_zero_eq] at hlen
  cases hr : decodeScan 0 0 bytes with
  | none =>
    have h : ¬ terminalIndex bytes < bytes.length := by
      intro h
      rw [hr, if_pos h] at hlen
      cases hlen
    rw [if_neg h]
  | some r =>
    obtain ⟨n, v⟩ := r
    have hv : v.toNat = varintPattern bytes := (hvalue _ hr).trans (scanPattern_zero bytes)
    rw [hr, Option.map_some, eq_comm, Option.ite_none_right_eq_some, Option.some.injEq] at hlen
    obtain ⟨h, hn⟩ := hlen
    rw [if_pos h, hn, ← hv, BitVec.ofNat_toNat, BitVec.setWidth_eq]

section
variable {n : BitVec 4}

theorem decodeResult_of_supplied (hlen : bytes.length = nAvail n) (h : terminalIndex bytes < bytes.length) :
    decodeResult n bytes = okResponse (terminalIndex bytes + 1) [] (BitVec.ofNat 64 (varintPattern bytes)) := by
  rw [decodeResult, supplied_eq hlen, decodeScan_zero_eq, if_pos h]

theorem decodeResult_of_not_supplied (hlen : bytes.length = nAvail n) (h : ¬ terminalIndex bytes < bytes.length) :
    decodeResult n bytes = errorResponse .insufficientInput := by
  rw [decodeResult, supplied_eq hlen, decodeScan_zero_eq, if_neg h]

theorem decodeResult_of_isVarint (hlen : bytes.length = nAvail n) (h : IsVarint bytes) :
    decodeResult n bytes = okResponse bytes.length [] (BitVec.ofNat 64 (varintPattern bytes)) := by
  have hT := terminalIndex_of_isVarint h
  rw [decodeResult_of_supplied hlen (by omega), hT]

/-- DECODE fails where PROBE fails (R116). -/
theorem decodeResult_status_eq_probeResult_status (hlen : bytes.length = nAvail n) :
    (decodeResult n bytes).status = (probeResult n bytes).status := by
  by_cases h : terminalIndex bytes < bytes.length
  · rw [decodeResult_of_supplied hlen h, probeResult_of_supplied hlen h]
    rfl
  · rw [decodeResult_of_not_supplied hlen h, probeResult_of_not_supplied hlen h]

end

theorem exec_decode (n : BitVec 4) (bytes : List Byte) (s : State) :
    exec (.decode n bytes) s = .next { s with offer := some (decodeResult n bytes) } :=
  exec_eq (.decode n bytes) s

/-! ### The nine-byte form (R112) -/

/-- Eight bytes with bit 7 set leave the ninth, whatever it is, as the last. -/
theorem isVarint_of_nine_bytes (hlen : bytes.length = 9)
    (h : ∀ i, i < 8 → highBit (bytes.getD i 0) = true) : IsVarint bytes :=
  ⟨by omega, by simp [hlen], fun k hk => h k (by omega), fun hlt => absurd hlt (by simp [hlen])⟩

section
variable (hT : terminalIndex bytes = 8)
include hT

theorem varintPattern_lastByte :
    (BitVec.ofNat 64 (varintPattern bytes)).extractLsb' 0 8 = bytes.getD 8 0 := by
  apply BitVec.eq_of_toNat_eq
  have hlast := (bytes.getD 8 0).isLt
  rw [BitVec.extractLsb'_toNat, varintPattern_toNat, varintPattern_of_terminalIndex_eq_eight hT]
  omega

/-- Above the last byte stand the eight chunks, the last of them lowest. -/
theorem varintPattern_chunk (hlen : 8 ≤ bytes.length) {k : Nat} (hk : k < 8) :
    (BitVec.ofNat 64 (varintPattern bytes)).extractLsb' (8 + 7 * k) 7 =
      (bytes.getD (7 - k) 0).extractLsb' 0 7 := by
  have hlast := (bytes.getD 8 0).isLt
  have htake : (bytes.take 8).length = 8 := List.length_take_of_le hlen
  have hbyte : (bytes.take 8).getD (7 - k) 0 = bytes.getD (7 - k) 0 := by
    rw [List.getD_eq_getElem _ _ (by omega), List.getD_eq_getElem _ _ (by omega), List.getElem_take]
  have hchunks : varintPattern bytes / 2 ^ 8 = chunkSum (bytes.take 8) := by
    rw [varintPattern_of_terminalIndex_eq_eight hT]
    omega
  apply BitVec.eq_of_toNat_eq
  calc ((BitVec.ofNat 64 (varintPattern bytes)).extractLsb' (8 + 7 * k) 7).toNat
      = chunkSum (bytes.take 8) / 2 ^ (7 * k) % 2 ^ 7 := by
        rw [BitVec.extractLsb'_toNat, varintPattern_toNat, Nat.shiftRight_eq_div_pow, Nat.pow_add,
          ← Nat.div_div_eq_div_mul, hchunks]
    _ = (payload (bytes.getD (7 - k) 0)).toNat := by
        rw [chunkSum_chunk _ k (by omega), htake, hbyte]
    _ = ((bytes.getD (7 - k) 0).extractLsb' 0 7).toNat := by
        rw [payload_eq_mod, BitVec.extractLsb'_toNat, Nat.shiftRight_zero]

end

/-! ### Small values (R114) -/

theorem extractLsb'_top_byte_eq_zero {v : Word} (h : v.toNat < 2 ^ 56) : v.extractLsb' 56 8 = 0 := by
  apply BitVec.eq_of_toNat_eq
  rw [BitVec.extractLsb'_toNat, Nat.shiftRight_eq_div_pow, Nat.div_eq_of_lt h]
  rfl

theorem s64_nonneg {v : Word} (h : v.toNat < 2 ^ 63) : 0 ≤ s64 v := by
  rw [s64, BitVec.toInt_eq_toNat_of_lt (by omega)]
  exact Int.natCast_nonneg _

/-! ### Zero chunks in front (R117) -/

@[simp] theorem chunkSum_zeroChunk_cons (bytes : List Byte) : chunkSum (0x80#8 :: bytes) = chunkSum bytes := by
  have hpayload : payload 0x80#8 = 0 := by decide
  simp [chunkSum, hpayload]

theorem chunkSum_replicate_zeroChunk (n : Nat) : chunkSum (List.replicate n 0x80#8) = 0 := by
  induction n with
  | zero => rfl
  | succ n ih => rw [List.replicate_succ, chunkSum_zeroChunk_cons, ih]

/-- The varint of up to eight bytes is all chunks. -/
theorem varintPattern_of_isVarint (h : IsVarint bytes) (hlen : bytes.length ≤ 8) :
    varintPattern bytes = chunkSum bytes := by
  have hT := terminalIndex_of_isVarint h
  rw [varintPattern_of_terminalIndex_le_seven (by omega), hT, List.take_length]

/-- A byte with bit 7 set goes in front of a varint, as long as the last byte stays a chunk. -/
theorem IsVarint.cons (h : IsVarint bytes) (hlen : bytes.length ≤ 7) {b : Byte} (hb : highBit b = true) :
    IsVarint (b :: bytes) := by
  obtain ⟨hpos, -, hset, hclear⟩ := h
  refine ⟨by simp, by simp [maxLen]; omega, fun k hk => ?_, fun _ => ?_⟩
  · cases k with
    | zero => exact hb
    | succ k => exact hset k (by simpa using hk)
  · obtain ⟨l, hl⟩ : ∃ l, bytes.length = l + 1 := ⟨bytes.length - 1, by omega⟩
    simpa [hl] using hclear (Nat.lt_of_le_of_lt hlen (by decide))

theorem isVarint_eight_zeroChunks (b : Byte) : IsVarint (List.replicate 8 0x80#8 ++ [b]) := by
  refine isVarint_of_nine_bytes (by simp) fun i hi => ?_
  rw [List.getD_append _ _ _ _ (by simpa using hi), List.getD_replicate _ hi]
  decide

theorem varintPattern_eight_zeroChunks (b : Byte) :
    varintPattern (List.replicate 8 0x80#8 ++ [b]) = b.toNat := by
  have hT : terminalIndex (List.replicate 8 0x80#8 ++ [b]) + 1 = 9 :=
    terminalIndex_of_isVarint (isVarint_eight_zeroChunks b)
  rw [varintPattern_of_terminalIndex_eq_eight (by omega), List.take_left' List.length_replicate,
    chunkSum_replicate_zeroChunk]
  simp

/-! ### The obligations -/

/-- Settles O14: the scan finds the terminal byte and loses no bit of the pattern, or runs past the supplied bytes. -/
theorem decodeGivesVarintValue : Obligations.DecodeGivesVarintValue := by
  unfold Obligations.DecodeGivesVarintValue
  intro n bytes s hlen
  refine ⟨fun _ => varintPattern_lt bytes, ?_⟩
  rw [exec_decode]
  by_cases h : terminalIndex bytes < bytes.length
  · rw [if_pos h, decodeResult_of_supplied hlen h]
    rfl
  · rw [if_neg h, decodeResult_of_not_supplied hlen h]
    rfl

/-- Settles O15: nine bytes with the first eight flagged are one varint, of eight chunks and a whole byte. -/
theorem decodeNinthByteWhole : Obligations.DecodeNinthByteWhole := by
  unfold Obligations.DecodeNinthByteWhole
  intro n bytes s hlen hn hset
  have hnine : bytes.length = 9 := hlen.trans hn
  have hvarint := isVarint_of_nine_bytes hnine hset
  have hT : terminalIndex bytes = 8 := by
    have := terminalIndex_of_isVarint hvarint
    omega
  refine ⟨BitVec.ofNat 64 (varintPattern bytes), ?_, varintPattern_lastByte hT,
    fun k hk => varintPattern_chunk hT (by omega) hk⟩
  rw [exec_decode, decodeResult_of_isVarint hlen hvarint, hnine]
  rfl

/-- Settles O16: an answer of up to eight bytes is all chunks, at most eight of them. -/
theorem shortDecodeIsNonNegative : Obligations.ShortDecodeIsNonNegative := by
  unfold Obligations.ShortDecodeIsNonNegative
  intro n bytes s hlen
  refine ⟨_, exec_decode n bytes s, fun hok hshort => ?_⟩
  by_cases h : terminalIndex bytes < bytes.length
  case neg =>
    rw [decodeResult_of_not_supplied hlen h] at hok
    cases hok
  case pos =>
    have h8 := terminalIndex_le bytes
    rw [decodeResult_of_supplied hlen h] at hshort ⊢
    rw [okResponse_outLen_toNat (by omega)] at hshort ⊢
    have hlt : (BitVec.ofNat 64 (varintPattern bytes)).toNat < 2 ^ (7 * (terminalIndex bytes + 1)) := by
      rw [varintPattern_toNat]
      exact varintPattern_lt_of_terminalIndex_le_seven (by omega)
    have h56 : (BitVec.ofNat 64 (varintPattern bytes)).toNat < 2 ^ 56 :=
      hlt.trans_le (Nat.pow_le_pow_right Nat.two_pos (by omega))
    exact ⟨hlt, extractLsb'_top_byte_eq_zero h56, s64_nonneg (h56.trans (by decide))⟩

/-- Settles O17: DECODE has the status of PROBE, and an answer that is not `OK` is the error response. -/
theorem decodeFailsExactlyWithoutTerminal : Obligations.DecodeFailsExactlyWithoutTerminal := by
  unfold Obligations.DecodeFailsExactlyWithoutTerminal
  intro n bytes s hlen
  refine ⟨_, exec_decode n bytes s, ?_, ?_, fun h => ?_⟩
  · rw [decodeResult_status_eq_probeResult_status hlen, probeResult_status_eq_insufficientInput_iff hlen,
      length_le_terminalIndex_iff, hlen]
  · rw [decodeResult_status_eq_probeResult_status hlen]
    exact (probeResult_status_cases n bytes).resolve_right
  · have herror := answer_of_status_ne_ok (i := .decode n bytes) (by simp [answer, h])
    rw [answer, h] at herror
    exact herror

/-- Settles O18: a zero chunk in front keeps a varint of up to seven bytes a varint with the same chunk sum, and in the
nine-byte form eight of them leave the last byte. -/
theorem decodeAcceptsLeadingZeroChunks : Obligations.DecodeAcceptsLeadingZeroChunks := by
  unfold Obligations.DecodeAcceptsLeadingZeroChunks
  refine ⟨fun n m bytes s hvarint hlen hn hm => ?_, fun m b s hm => ?_⟩
  · have hcons : IsVarint (0x80#8 :: bytes) := hvarint.cons hlen (by decide)
    refine ⟨BitVec.ofNat 64 (chunkSum bytes), ?_, ?_⟩
    · rw [exec_decode, decodeResult_of_isVarint hn.symm hvarint, varintPattern_of_isVarint hvarint (by omega)]
      rfl
    · rw [exec_decode, decodeResult_of_isVarint (hm ▸ rfl) hcons, varintPattern_of_isVarint hcons (Nat.succ_le_succ hlen),
        chunkSum_zeroChunk_cons]
      rfl
  · rw [exec_decode, decodeResult_of_isVarint (by simp [hm]) (isVarint_eight_zeroChunks b),
      varintPattern_eight_zeroChunks, BitVec.ofNat_toNat]
    rfl

end Sys2Proof.Machine

/-! ## ENCODE (42_encoder.md) -/

namespace Sys2Proof.Machine

variable {u : Word}

theorem exec_encode (u : Word) (s : State) :
    exec (.encode u) s = .next { s with offer := some (encodeResult u) } :=
  exec_eq (.encode u) s

theorem lane_encodeResult (u : Word) {k : Nat} (hk : k < 9) :
    lane (encodeResult u).outBytes k = (encodeBytes u).getD k 0 :=
  lane_laneField (encodeBytes u) hk

/-! ### Flagged chunks and a last byte (R133) -/

section
variable (w : Word) {n : Nat} (b : Byte)

theorem flaggedChunks_append_getD {k : Nat} (hk : k < n) :
    (flaggedChunks w n ++ [b]).getD k 0 = (chunkAt w (n - 1 - k)).zeroExtend 8 ||| contBit := by
  rw [List.getD_append _ _ _ _ (by simpa using hk), flaggedChunks_getD w n k hk]

theorem flaggedChunks_append_getD_last : (flaggedChunks w n ++ [b]).getD n 0 = b := by
  simp

/-- Up to eight flagged chunks and a last byte are a varint; the last byte has bit 7 clear unless it is the ninth. -/
theorem isVarint_flaggedChunks_append (hn : n ≤ 8) (hb : n < 8 → highBit b = false) :
    IsVarint (flaggedChunks w n ++ [b]) := by
  have hlen : (flaggedChunks w n ++ [b]).length = n + 1 := by simp
  unfold IsVarint
  rw [hlen]
  refine ⟨by omega, Nat.succ_le_succ hn, fun k hk => ?_, fun hlt => ?_⟩
  · rw [flaggedChunks_append_getD w b (by omega)]
    exact highBit_flagged _
  · rw [Nat.add_sub_cancel, flaggedChunks_append_getD_last]
    exact hb (Nat.lt_of_succ_lt_succ hlt)

end

/-- ENCODE builds one whole varint, in either form (R133). -/
theorem isVarint_encodeBytes (u : Word) : IsVarint (encodeBytes u) := by
  by_cases h : force9Threshold < u
  · rw [encodeBytes_above h]
    exact isVarint_flaggedChunks_append _ _ (by omega) fun h8 => absurd h8 (Nat.lt_irrefl 8)
  · obtain ⟨n, hn, -, -, hbytes⟩ := encodeBytes_upTo (BitVec.not_lt.mp h)
    rw [hbytes]
    exact isVarint_flaggedChunks_append _ _ (by omega) fun _ => highBit_unflagged _

/-! ### The form of one to eight bytes (R134) -/

/-- `n + 1` chunks are what a number needs when they hold it and `n` do not. -/
theorem max_one_ceilDiv_bitlen {m n : Nat} (hlt : m < 2 ^ (7 * (n + 1))) (hle : 1 ≤ n → 2 ^ (7 * n) ≤ m) :
    max 1 (ceilDiv (bitlen m) 7) = n + 1 := by
  have hupper : bitlen m ≤ 7 * (n + 1) := Nat.size_le.mpr hlt
  have hlower : 1 ≤ n → 7 * n < bitlen m := fun h => Nat.lt_size.mpr (hle h)
  unfold ceilDiv
  omega

section
variable (hu : u ≤ force9Threshold)
include hu

theorem encodeBytes_length_upTo :
    (encodeBytes u).length = max 1 (ceilDiv (bitlen u.toNat) 7) ∧ (encodeBytes u).length ≤ 8 := by
  obtain ⟨n, hn, hlt, hle, hbytes⟩ := encodeBytes_upTo hu
  have hlen : (encodeBytes u).length = n + 1 := by simp [hbytes]
  exact ⟨hlen.trans (max_one_ceilDiv_bitlen hlt hle).symm, by omega⟩

theorem encodeBytes_getD_upTo {k : Nat} (hk : k < (encodeBytes u).length) :
    (encodeBytes u).getD k 0 = (if k < (encodeBytes u).length - 1 then 0x80#8 else 0x00#8) |||
      (u.extractLsb' (7 * ((encodeBytes u).length - 1 - k)) 7).zeroExtend 8 := by
  obtain ⟨n, -, -, -, hbytes⟩ := encodeBytes_upTo hu
  have hlen : (encodeBytes u).length = n + 1 := by simp [hbytes]
  rw [hlen, Nat.add_sub_cancel, hbytes]
  by_cases hkn : k < n
  · have hplace : n - 1 - k + 1 = n - k := by omega
    rw [flaggedChunks_append_getD _ _ hkn, chunkAt_ushiftRight, hplace, if_pos hkn, BitVec.or_comm]
    rfl
  · obtain rfl : k = n := by omega
    rw [flaggedChunks_append_getD_last, if_neg hkn, Nat.sub_self, BitVec.zero_or]
    rfl

end

/-! ### The nine-byte form (R135) -/

theorem two_pow_le_of_threshold_lt (h : force9Threshold < u) : 2 ^ 56 ≤ u.toNat :=
  Nat.succ_le_of_lt (BitVec.lt_def.mp h)

section
variable (hu : force9Threshold < u)
include hu

theorem encodeBytes_length_above : (encodeBytes u).length = 9 := by
  simp [encodeBytes_above hu]

theorem encodeBytes_getD_above {k : Nat} (hk : k < 8) :
    (encodeBytes u).getD k 0 = (u.extractLsb' (57 - 7 * k) 7).zeroExtend 8 ||| contBit := by
  have hchunk : chunkAt (u >>> 8) (8 - 1 - k) = u.extractLsb' (57 - 7 * k) 7 := by
    have hplace : 8 + 7 * (8 - 1 - k) = 57 - 7 * k := by omega
    apply BitVec.eq_of_getLsbD_eq
    intro j _
    simp only [chunkAt, BitVec.getLsbD_extractLsb', BitVec.getLsbD_ushiftRight, ← Nat.add_assoc, hplace]
  rw [encodeBytes_above hu, flaggedChunks_append_getD _ _ hk, hchunk]

theorem encodeBytes_getD_eight_above : (encodeBytes u).getD 8 0 = u.extractLsb' 0 8 := by
  rw [encodeBytes_above hu]
  exact flaggedChunks_append_getD_last _ _

theorem extractLsb'_top_byte_ne_zero : u.extractLsb' 56 8 ≠ 0 := by
  have hle := two_pow_le_of_threshold_lt hu
  intro h
  have htop : u.toNat / 2 ^ 56 % 2 ^ 8 = 0 := by
    rw [← Nat.shiftRight_eq_div_pow, ← BitVec.extractLsb'_toNat, h]
    rfl
  omega

/-- Where the first chunk is zero, the bit below it stands. -/
theorem getLsbD_of_first_chunk_eq_zero (hzero : u.extractLsb' 57 7 = 0) : u.getLsbD 56 = true := by
  have hle := two_pow_le_of_threshold_lt hu
  have htop : u.toNat / 2 ^ 57 % 2 ^ 7 = 0 := by
    rw [← Nat.shiftRight_eq_div_pow, ← BitVec.extractLsb'_toNat, hzero]
    rfl
  rw [BitVec.getLsbD, Nat.testBit_eq_decide_div_mod_eq, decide_eq_true_eq]
  omega

/-- The encoder emits no zero chunk that only fills up (R135). -/
theorem encodeBytes_leading_above : payload ((encodeBytes u).getD 0 0) ≠ 0 ∨
    ((encodeBytes u).getD 0 0 = 0x80#8 ∧ ((encodeBytes u).getD 1 0).getLsbD 6 = true) := by
  rw [encodeBytes_getD_above hu (show 0 < 8 by omega), encodeBytes_getD_above hu (show 1 < 8 by omega),
    Nat.mul_zero, Nat.sub_zero]
  by_cases hzero : u.extractLsb' 57 7 = 0
  · exact .inr ⟨by simp [hzero], by simp [getLsbD_of_first_chunk_eq_zero hu hzero]⟩
  · refine .inl fun h => hzero (BitVec.eq_of_toNat_eq ?_)
    rw [← payload_flagged, h]
    rfl

end

/-! ### The kind of shift (R136) -/

section
variable (arith : Bool)

/-- The two shifts differ in the bits they fill only. -/
theorem shiftDown_getLsbD (w : Word) {k i : Nat} (h : k + i < 64) :
    (shiftDown arith w k).getLsbD i = w.getLsbD (k + i) := by
  cases arith with
  | false => simp [shiftDown]
  | true =>
    have hi : ¬ 64 ≤ i := by omega
    simp [shiftDown, BitVec.getLsbD_sshiftRight, h, hi]

theorem shiftDown_of_msb_eq_false {w : Word} (h : w.msb = false) (k : Nat) : shiftDown arith w k = w >>> k := by
  cases arith with
  | false => rfl
  | true => exact BitVec.sshiftRight_eq_of_msb_false h

/-- The nine-byte form reads the `7 * fuel` low bits of the working value and no other. -/
theorem packLoop_nine_congr (fuel : Nat) : ∀ (w v : Word) (buf : List Byte), 7 * fuel ≤ 64 →
    (∀ i, i < 7 * fuel → w.getLsbD i = v.getLsbD i) →
    packLoop arith true fuel w buf = packLoop false true fuel v buf := by
  induction fuel with
  | zero => intro w v buf _ _; rfl
  | succ fuel ih =>
    intro w v buf hfuel hbits
    have hchunk : w.extractLsb' 0 7 = v.extractLsb' 0 7 := by
      apply BitVec.eq_of_getLsbD_eq
      intro j hj
      simp [hj, hbits j (by omega)]
    simp only [packLoop, Bool.not_true, Bool.false_and, Bool.false_eq_true, if_false, hchunk]
    refine ih _ _ _ (by omega) fun i hi => ?_
    rw [shiftDown_getLsbD arith w (by omega), shiftDown_getLsbD false v (by omega), hbits (7 + i) (by omega)]

/-- From a working value with a clear sign bit every shift of the loop is the logical one. -/
theorem packLoop_of_msb_eq_false (nine : Bool) (fuel : Nat) : ∀ (w : Word) (buf : List Byte), w.msb = false →
    packLoop arith nine fuel w buf = packLoop false nine fuel w buf := by
  induction fuel with
  | zero => intro w buf _; rfl
  | succ fuel ih =>
    intro w buf hw
    have hnext : (w >>> 7).msb = false := by simp [BitVec.msb_ushiftRight]
    simp only [packLoop, shiftDown_of_msb_eq_false _ hw, ih _ _ hnext]

theorem encodeBytesWith_eq (u : Word) : encodeBytesWith arith u = encodeBytes u := by
  unfold encodeBytes encodeBytesWith
  by_cases h : force9Threshold < u
  · have hnine : needsNine u = true := by simpa [needsNine] using h
    rw [if_pos hnine, if_pos hnine]
    refine packLoop_nine_congr arith 8 _ _ _ (by omega) fun i hi => ?_
    rw [shiftDown_getLsbD arith u (by omega), shiftDown_getLsbD false u (by omega)]
  · have hnine : ¬ needsNine u = true := by simpa [needsNine] using h
    have hmsb : u.msb = false := by
      have hle : u.toNat ≤ 2 ^ 56 - 1 := BitVec.le_def.mp (BitVec.not_lt.mp h)
      rw [BitVec.msb_eq_false_iff_two_mul_lt]
      omega
    rw [if_neg hnine, if_neg hnine, packLoop_of_msb_eq_false arith false 8 u [] hmsb]

end

/-! ### The obligations -/

/-- Settles O19: the loop stops at the first chunk that leaves nothing, which is the count of R134. -/
theorem encodeShortForm : Obligations.EncodeShortForm := by
  unfold Obligations.EncodeShortForm
  intro u s hu
  obtain ⟨hlen, h8⟩ := encodeBytes_length_upTo hu
  refine ⟨(encodeBytes u).length, encodeResult u, exec_encode u s, hlen, (encodeBytes_length_range u).1, h8,
    fun hsmall => ?_, fun n h2 _ hle hlt => ?_, rfl, rfl, rfl, fun k hk => ?_, fun k hk h9 => ?_⟩
  · exact hlen.trans (max_one_ceilDiv_bitlen (n := 0) (by omega) (by simp))
  · obtain ⟨m, rfl⟩ : ∃ m, n = m + 1 := ⟨n - 1, by omega⟩
    exact hlen.trans (max_one_ceilDiv_bitlen hlt fun _ => hle)
  · rw [lane_encodeResult u (by omega), encodeBytes_getD_upTo hu hk]
  · rw [lane_encodeResult u h9, List.getD_eq_default _ _ hk]

/-- Settles O20: eight flagged chunks of the upper 56 bits and the raw low byte. -/
theorem encodeNineByteForm : Obligations.EncodeNineByteForm := by
  unfold Obligations.EncodeNineByteForm
  intro u s hu
  refine ⟨encodeResult u, exec_encode u s, rfl, ?_, rfl, fun k hk => ?_, ?_, extractLsb'_top_byte_ne_zero hu, ?_⟩
  · rw [encodeResult, encodeBytes_length_above hu]
    rfl
  · rw [lane_encodeResult u (by omega), encodeBytes_getD_above hu hk, BitVec.or_comm]
  · rw [lane_encodeResult u (by omega), encodeBytes_getD_eight_above hu]
  · rw [lane_encodeResult u (by omega), lane_encodeResult u (by omega)]
    exact encodeBytes_leading_above hu

/-- Settles O21: both forms are flagged chunks and a last byte, and only the nine-byte form has a raw one. -/
theorem encodeAlwaysGivesVarint : Obligations.EncodeAlwaysGivesVarint := by
  unfold Obligations.EncodeAlwaysGivesVarint
  intro u s
  have h9 : (encodeBytes u).length ≤ 9 := (encodeBytes_length_range u).2
  refine ⟨encodeBytes u, isVarint_encodeBytes u, exec_encode u s, fun k hk => lane_laneField _ (by omega),
    fun k hk hk9 => ?_, fun hnine => ?_⟩
  · rw [lane_laneField _ hk9, List.getD_eq_default _ _ hk]
  · have hu : force9Threshold < u := by
      by_contra h
      have := (encodeBytes_length_upTo (BitVec.not_lt.mp h)).2
      omega
    rw [encodeBytes_getD_eight_above hu]
    exact ⟨rfl, by simp [highBit]⟩

/-- Settles O23: the shifts differ in the bits they fill, which the nine-byte form does not read and which are zero in
the short one. -/
theorem kindOfShiftDoesNotMatter : Obligations.KindOfShiftDoesNotMatter := by
  unfold Obligations.KindOfShiftDoesNotMatter
  intro arith u s
  rw [encodeBytesWith_eq]
  exact exec_encode u s

end Sys2Proof.Machine

/-! ## Laws between the operations (43_laws.md) -/

namespace Sys2Proof.Machine

variable {bytes other p : List Byte} {u v : Word} {n : BitVec 4}

/-! ### The two readings of a pattern (R151) -/

theorem s64_u64 {v : Int} (h : IsInt64 v) : s64 (u64 v) = v :=
  BitVec.toInt_ofInt_eq_self (by omega) h.1 h.2

theorem u64_s64 (u : Word) : u64 (s64 u) = u := BitVec.ofInt_toInt

theorem isInt64_s64 (u : Word) : IsInt64 (s64 u) := ⟨BitVec.le_toInt u, BitVec.toInt_lt⟩

theorem s64_neg_iff (u : Word) : s64 u < 0 ↔ u.getLsbD 63 = true := by
  rw [← BitVec.msb_eq_getLsbD_last u, BitVec.msb_eq_toInt, decide_eq_true_eq, s64]

/-! ### Bytes and byte lists -/

theorem byteList_ext (hlen : bytes.length = other.length)
    (h : ∀ k, k < bytes.length → bytes.getD k 0 = other.getD k 0) : bytes = other :=
  List.ext_getElem hlen fun k hk hk' => by
    rw [← List.getD_eq_getElem _ 0 hk, ← List.getD_eq_getElem _ 0 hk', h k hk]

theorem getD_take (bytes : List Byte) {k m : Nat} (h : k < m) : (bytes.take m).getD k 0 = bytes.getD k 0 := by
  rw [List.getD_eq_getElem?_getD, List.getElem?_take_of_lt h, List.getD_eq_getElem?_getD]

theorem byte_eq_payload_or (b : Byte) : b = payload b ||| (if highBit b then contBit else 0) := by
  revert b
  decide

/-- A byte is fixed by its continuation bit and its payload (R41). -/
theorem byte_ext {b c : Byte} (hhigh : highBit b = highBit c) (hpayload : (payload b).toNat = (payload c).toNat) :
    b = c := by
  rw [byte_eq_payload_or b, byte_eq_payload_or c, hhigh, BitVec.eq_of_toNat_eq hpayload]

/-! ### The varint a byte list begins with (R158) -/

/-- The bytes up to the terminal byte are one whole varint. -/
theorem isVarint_take (h : terminalIndex bytes < bytes.length) : IsVarint (bytes.take (terminalIndex bytes + 1)) := by
  have hlen : (bytes.take (terminalIndex bytes + 1)).length = terminalIndex bytes + 1 := List.length_take_of_le h
  cases hs : scanHit 0 bytes with
  | some k =>
    obtain ⟨hk, -, hclear, hset⟩ := scanHit_eq_some.mp hs
    rw [terminalIndex_of_scanHit_some hs] at hlen ⊢
    unfold IsVarint
    rw [hlen]
    refine ⟨by omega, Nat.succ_le_succ (by omega), fun j hj => ?_, fun _ => ?_⟩
    · rw [getD_take _ (by omega), hset j (by omega)]
    · rw [Nat.add_sub_cancel, getD_take _ k.lt_succ_self, hclear]
  | none =>
    rw [terminalIndex_of_scanHit_none hs] at h hlen ⊢
    refine isVarint_of_nine_bytes hlen fun i hi => ?_
    rw [getD_take _ (by omega), scanHit_eq_none.mp hs i hi (by omega)]

section
variable (hp : IsVarint p) (hpre : p <+: bytes)
include hp hpre

/-- What stands after a varint does not move its terminal byte. -/
theorem terminalIndex_of_prefix : terminalIndex bytes + 1 = p.length := by
  obtain ⟨rest, rfl⟩ := hpre
  obtain ⟨hpos, h9, hset, hclear⟩ := hp
  have hlen : (p ++ rest).length = p.length + rest.length := List.length_append
  simp only [maxLen] at h9 hclear
  by_cases hlt : p.length < 9
  · have hs : scanHit 0 (p ++ rest) = some (p.length - 1) := by
      refine scanHit_eq_some.mpr ⟨by omega, by omega, ?_, fun j hj => ?_⟩
      · rw [List.getD_append _ _ _ _ (by omega), hclear hlt]
      · rw [List.getD_append _ _ _ _ (by omega), hset j (by omega)]
    rw [terminalIndex_of_scanHit_some hs]
    omega
  · have hs : scanHit 0 (p ++ rest) = none := by
      refine scanHit_eq_none.mpr fun k hk _ => ?_
      rw [List.getD_append _ _ _ _ (by omega), hset k (by omega)]
    rw [terminalIndex_of_scanHit_none hs]
    omega

theorem terminalIndex_lt_of_prefix : terminalIndex bytes < bytes.length := by
  have hT := terminalIndex_of_prefix hp hpre
  have hle := hpre.length_le
  omega

theorem varintPattern_of_prefix : varintPattern bytes = varintPattern p := by
  have hT := terminalIndex_of_prefix hp hpre
  have hTp := terminalIndex_of_isVarint hp
  obtain ⟨rest, rfl⟩ := hpre
  by_cases h7 : terminalIndex p ≤ 7
  · rw [varintPattern_of_terminalIndex_le_seven h7, varintPattern_of_terminalIndex_le_seven (by omega), hT, hTp,
      List.take_left, List.take_length]
  · have h8 : terminalIndex p = 8 := by have := terminalIndex_le p; omega
    rw [varintPattern_of_terminalIndex_eq_eight h8, varintPattern_of_terminalIndex_eq_eight (by omega),
      List.take_append_of_le_length (by omega), List.getD_append _ _ _ _ (by omega)]

theorem probeResult_of_prefix (hlen : bytes.length = nAvail n) :
    probeResult n bytes = okResponse p.length [] 0 := by
  rw [probeResult_of_supplied hlen (terminalIndex_lt_of_prefix hp hpre), terminalIndex_of_prefix hp hpre]

theorem decodeResult_of_prefix (hlen : bytes.length = nAvail n) :
    decodeResult n bytes = okResponse p.length [] (BitVec.ofNat 64 (varintPattern p)) := by
  rw [decodeResult_of_supplied hlen (terminalIndex_lt_of_prefix hp hpre), terminalIndex_of_prefix hp hpre,
    varintPattern_of_prefix hp hpre]

end

/-- The first lanes of a bundle, as far as they are supplied. -/
theorem suppliedBytes_take (b : Bundle) {m : Nat} (h : m ≤ nAvail (lenField b)) :
    (suppliedBytes b).take m = (List.range m).map (bundleLane b) := by
  rw [suppliedBytes, ← List.map_take, List.take_range, Nat.min_eq_left h]

/-- PROBE and DECODE give requests that begin with one varint one response. -/
theorem Exec_congr_of_prefix {b c : Bundle} (hop : opField c = opField b)
    (h : opField b = 0b00#2 ∨ opField b = 0b01#2) (hp : IsVarint p) (hb : p <+: suppliedBytes b)
    (hc : p <+: suppliedBytes c) : Exec c = Exec b := by
  unfold Exec
  rcases h with h | h
  · rw [decodeReq_of_probe h, decodeReq_of_probe (hop.trans h), answer, answer,
      probeResult_of_prefix hp hb (suppliedBytes_length b), probeResult_of_prefix hp hc (suppliedBytes_length c)]
  · rw [decodeReq_of_decode h, decodeReq_of_decode (hop.trans h), answer, answer,
      decodeResult_of_prefix hp hb (suppliedBytes_length b), decodeResult_of_prefix hp hc (suppliedBytes_length c)]

/-! ### PROBE and DECODE count the same bytes (R156) -/

theorem decodeResult_outLen_eq_probeResult_outLen (hlen : bytes.length = nAvail n) :
    (decodeResult n bytes).outLen = (probeResult n bytes).outLen := by
  by_cases h : terminalIndex bytes < bytes.length
  · rw [decodeResult_of_supplied hlen h, probeResult_of_supplied hlen h]
    rfl
  · rw [decodeResult_of_not_supplied hlen h, probeResult_of_not_supplied hlen h]

/-! ### The varints that decode to a value -/

theorem nAvail_ofNat {m : Nat} (h : m ≤ 9) : nAvail (BitVec.ofNat 4 m) = m := by
  simp only [nAvail, maxLen, BitVec.toNat_ofNat]
  omega

/-- Outcomes that differ in the response on offer only are the same exactly if the responses are. -/
theorem next_offer_inj {s : State} {r q : Response} :
    (Host.Outcome.next { s with offer := some r } : Host.Outcome State Fault Refusal) =
      .next { s with offer := some q } ↔ r = q :=
  ⟨fun h => Option.some.inj (congrArg State.offer (Host.Outcome.next.inj h)), fun h => h ▸ rfl⟩

/-- Bytes decode to a value exactly if they are one varint whose pattern is the value's (R70, R72). -/
theorem decodesTo_iff : DecodesTo bytes v ↔ IsVarint bytes ∧ varintPattern bytes = v.toNat := by
  refine and_congr_right fun hvarint => ?_
  have hlen : bytes.length = nAvail (BitVec.ofNat 4 bytes.length) := (nAvail_ofNat hvarint.2.1).symm
  have hvalue : BitVec.ofNat 64 (varintPattern bytes) = v ↔ varintPattern bytes = v.toNat := by
    rw [← BitVec.toNat_inj, varintPattern_toNat]
  have hresponse (s : State) : exec (.decode (BitVec.ofNat 4 bytes.length) bytes) s =
      .next { s with offer := some ⟨.ok, BitVec.ofNat 4 bytes.length, 0, v⟩ } ↔ varintPattern bytes = v.toNat := by
    rw [exec_decode, decodeResult_of_isVarint hlen hvarint, next_offer_inj, ← hvalue]
    exact ⟨congrArg Response.outValue, fun h => h ▸ rfl⟩
  exact ⟨fun h => (hresponse State.reset).mp (h State.reset), fun h s => (hresponse s).mpr h⟩

/-- A zero chunk in front of a varint of up to seven bytes does not change the value (41_decoder.md R117). -/
theorem DecodesTo.zeroChunk_cons (h : DecodesTo bytes v) (hlen : bytes.length ≤ 7) :
    DecodesTo (0x80#8 :: bytes) v := by
  obtain ⟨hvarint, hpattern⟩ := decodesTo_iff.mp h
  have hcons : IsVarint (0x80#8 :: bytes) := hvarint.cons hlen (by decide)
  refine decodesTo_iff.mpr ⟨hcons, ?_⟩
  rw [varintPattern_of_isVarint hcons (Nat.succ_le_succ hlen), chunkSum_zeroChunk_cons,
    ← varintPattern_of_isVarint hvarint (by omega), hpattern]

theorem chunkSum_payload_congr (hlen : bytes.length = other.length) (h : chunkSum bytes = chunkSum other) {k : Nat}
    (hk : k < bytes.length) : (payload (bytes.getD k 0)).toNat = (payload (other.getD k 0)).toNat := by
  have hplace : bytes.length - 1 - (bytes.length - 1 - k) = k := by omega
  have hbytes := chunkSum_chunk bytes (bytes.length - 1 - k) (by omega)
  have hother := chunkSum_chunk other (bytes.length - 1 - k) (by omega)
  rw [hplace] at hbytes
  rw [← hlen, hplace] at hother
  rw [← hbytes, h, hother]

/-- The continuation bits of a varint are fixed by its length. -/
theorem IsVarint.highBit_getD (h : IsVarint bytes) {k : Nat} (hk : k < bytes.length) (h8 : k < 8) :
    highBit (bytes.getD k 0) = decide (k + 1 < bytes.length) := by
  obtain ⟨-, -, hset, hclear⟩ := h
  by_cases hlast : k + 1 < bytes.length
  · rw [hset k hlast, decide_eq_true hlast]
  · obtain rfl : k = bytes.length - 1 := by omega
    rw [hclear (by simp only [maxLen]; omega), decide_eq_false hlast]

/-- One length has one varint for each pattern. -/
theorem IsVarint.ext (h : IsVarint bytes) (h' : IsVarint other) (hlen : bytes.length = other.length)
    (hpattern : varintPattern bytes = varintPattern other) : bytes = other := by
  have hhigh : ∀ k, k < bytes.length → k < 8 → highBit (bytes.getD k 0) = highBit (other.getD k 0) :=
    fun k hk h8 => by rw [h.highBit_getD hk h8, h'.highBit_getD (hlen ▸ hk) h8, hlen]
  refine byteList_ext hlen fun k hk => ?_
  by_cases hle : bytes.length ≤ 8
  · rw [varintPattern_of_isVarint h hle, varintPattern_of_isVarint h' (hlen ▸ hle)] at hpattern
    exact byte_ext (hhigh k hk (by omega)) (chunkSum_payload_congr hlen hpattern hk)
  · have hT := terminalIndex_of_isVarint h
    have hT' := terminalIndex_of_isVarint h'
    have h9 : bytes.length ≤ 9 := h.2.1
    have hlast := (bytes.getD 8 0).isLt
    have hlast' := (other.getD 8 0).isLt
    rw [varintPattern_of_terminalIndex_eq_eight (by omega), varintPattern_of_terminalIndex_eq_eight (by omega)]
      at hpattern
    by_cases h8 : k < 8
    · have hchunks : chunkSum (bytes.take 8) = chunkSum (other.take 8) := by omega
      have hpayload := chunkSum_payload_congr (k := k) (by simp only [List.length_take, hlen]) hchunks
        (by rw [List.length_take]; omega)
      rw [getD_take _ h8, getD_take _ h8] at hpayload
      exact byte_ext (hhigh k hk h8) hpayload
    · obtain rfl : k = 8 := by omega
      exact BitVec.eq_of_toNat_eq (by omega)

/-! ### ENCODE's bytes among them (R152 to R155, R157) -/

/-- ENCODE's bytes stand for the pattern they were made of. -/
theorem varintPattern_encodeBytes (u : Word) : varintPattern (encodeBytes u) = u.toNat := by
  have hvarint := isVarint_encodeBytes u
  by_cases hu : force9Threshold < u
  · have hT := terminalIndex_of_isVarint hvarint
    rw [encodeBytes_length_above hu] at hT
    rw [varintPattern_of_terminalIndex_eq_eight (by omega), encodeBytes_getD_eight_above hu, encodeBytes_above hu,
      List.take_left' (flaggedChunks_length _ 8), chunkSum_flaggedChunks, BitVec.toNat_ushiftRight,
      BitVec.extractLsb'_toNat, Nat.shiftRight_eq_div_pow]
    omega
  · have hle := BitVec.not_lt.mp hu
    obtain ⟨n, -, hlt, -, hbytes⟩ := encodeBytes_upTo hle
    have hupper : u.toNat / 2 ^ 7 < 2 ^ (7 * n) := by
      rw [Nat.mul_add, Nat.pow_add] at hlt
      exact Nat.div_lt_of_lt_mul (by rwa [Nat.mul_comm])
    rw [varintPattern_of_isVarint hvarint (encodeBytes_length_upTo hle).2, hbytes, chunkSum_append_singleton,
      chunkSum_flaggedChunks, payload_unflagged, chunkAt, BitVec.extractLsb'_toNat, BitVec.toNat_ushiftRight,
      Nat.shiftRight_eq_div_pow, Nat.mod_eq_of_lt hupper]
    simp only [Nat.mul_zero, Nat.shiftRight_zero]
    omega

theorem decodesTo_encodeBytes (u : Word) : DecodesTo (encodeBytes u) u :=
  decodesTo_iff.mpr ⟨isVarint_encodeBytes u, varintPattern_encodeBytes u⟩

/-- A varint of at most eight bytes holds too few bits for a value that ENCODE gives more (R153). -/
theorem encodeBytes_length_le (h : DecodesTo bytes u) : (encodeBytes u).length ≤ bytes.length := by
  obtain ⟨hvarint, hpattern⟩ := decodesTo_iff.mp h
  have hT := terminalIndex_of_isVarint hvarint
  have h9 : bytes.length ≤ 9 := hvarint.2.1
  by_cases hlen : bytes.length = 9
  · exact hlen ▸ (encodeBytes_length_range u).2
  have hbits : u.toNat < 2 ^ (7 * bytes.length) := by
    rw [← hpattern, ← hT]
    exact varintPattern_lt_of_terminalIndex_le_seven (by omega)
  by_cases hu : force9Threshold < u
  · have hle : 2 ^ (7 * bytes.length) ≤ 2 ^ 56 := Nat.pow_le_pow_right Nat.two_pos (by omega)
    have := two_pow_le_of_threshold_lt hu
    omega
  · obtain ⟨n, -, -, hlower, hbytes⟩ := encodeBytes_upTo (BitVec.not_lt.mp hu)
    rw [hbytes, List.length_append, flaggedChunks_length, List.length_singleton]
    by_cases hn : 1 ≤ n
    · have := (Nat.pow_lt_pow_iff_right (Nat.one_lt_two)).mp ((hlower hn).trans_lt hbits)
      omega
    · omega

/-- Of the length ENCODE gives, its bytes are the only varint of the value. -/
theorem eq_encodeBytes_of_length_le (h : DecodesTo bytes u) (hlen : bytes.length ≤ (encodeBytes u).length) :
    encodeBytes u = bytes := by
  obtain ⟨hvarint, hpattern⟩ := decodesTo_iff.mp h
  exact (isVarint_encodeBytes u).ext hvarint (Nat.le_antisymm (encodeBytes_length_le h) hlen)
    ((varintPattern_encodeBytes u).trans hpattern.symm)

theorem encodeBytes_injective (h : encodeBytes u = encodeBytes v) : u = v :=
  BitVec.eq_of_toNat_eq (by rw [← varintPattern_encodeBytes u, h, varintPattern_encodeBytes v])

theorem encodeBytes_length_eq_nine_iff : (encodeBytes u).length = 9 ↔ force9Threshold < u := by
  refine ⟨fun h => ?_, encodeBytes_length_above⟩
  by_contra hu
  have := (encodeBytes_length_upTo (BitVec.not_lt.mp hu)).2
  omega

/-! ### The response of ENCODE -/

theorem encodeResult_outLen_toNat (u : Word) : (encodeResult u).outLen.toNat = (encodeBytes u).length :=
  okResponse_outLen_toNat (encodeBytes_length_range u).2 _ _

theorem encodeResult_outLen_eq_nine_iff : (encodeResult u).outLen = 9#4 ↔ force9Threshold < u := by
  rw [← encodeBytes_length_eq_nine_iff, ← encodeResult_outLen_toNat, ← BitVec.toNat_inj]
  rfl

/-- A response shows the bytes it carries: their number, and each in its lane. -/
theorem okResponse_bytes_inj (hb : bytes.length ≤ 9) (ho : other.length ≤ 9)
    (h : okResponse bytes.length bytes 0 = okResponse other.length other 0) : bytes = other := by
  have hlen : bytes.length = other.length := by
    rw [← okResponse_outLen_toNat hb bytes 0, h, okResponse_outLen_toNat ho]
  refine byteList_ext hlen fun k hk => ?_
  have hlanes : laneField bytes = laneField other := congrArg Response.outBytes h
  rw [← lane_laneField bytes (by omega), hlanes, lane_laneField other (by omega)]

theorem encodeResult_injective (h : encodeResult u = encodeResult v) : u = v :=
  encodeBytes_injective
    (okResponse_bytes_inj (encodeBytes_length_range u).2 (encodeBytes_length_range v).2 h)

/-! ### The obligations -/

/-- Settles O25: the supplied bytes begin with ENCODE's varint, whose pattern is the value's. -/
theorem decodeOfEncodeRoundTrip : Obligations.DecodeOfEncodeRoundTrip := by
  unfold Obligations.DecodeOfEncodeRoundTrip
  intro v s t hv
  refine ⟨encodeResult (u64 v), exec_encode _ s, fun b hop hlen hlanes => ⟨u64 v, ?_, s64_u64 hv⟩⟩
  rw [encodeResult_outLen_toNat] at hlen hlanes
  have h9 : (encodeBytes (u64 v)).length ≤ 9 := (encodeBytes_length_range _).2
  have hprefix : encodeBytes (u64 v) <+: suppliedBytes b := by
    rw [List.prefix_iff_eq_take, suppliedBytes_take b (Nat.le_min.mpr ⟨hlen, h9⟩)]
    refine byteList_ext (by simp) fun k hk => ?_
    rw [← lane_encodeResult _ (by omega), ← hlanes k hk]
    simp [hk]
  rw [decodeReq_of_decode hop, exec_decode,
    decodeResult_of_prefix (isVarint_encodeBytes _) hprefix (suppliedBytes_length b), varintPattern_encodeBytes,
    BitVec.ofNat_toNat, BitVec.setWidth_eq]
  rfl

/-- Settles O26: ENCODE's bytes decode to the value, and shorter ones have too few bits. -/
theorem encodeLengthIsMinimal : Obligations.EncodeLengthIsMinimal := by
  unfold Obligations.EncodeLengthIsMinimal
  intro u s
  refine ⟨encodeResult u, exec_encode u s, ?_⟩
  rw [encodeResult_outLen_toNat]
  exact ⟨⟨encodeBytes u, rfl, decodesTo_encodeBytes u⟩, fun bytes h => encodeBytes_length_le h,
    fun hu => (encodeBytes_length_upTo hu).1, encodeBytes_length_above⟩

/-- Settles O22: a negative value has bit 63 set, and so a pattern above the threshold. -/
theorem nineBytesExactlyForLargePatterns : Obligations.NineBytesExactlyForLargePatterns := by
  unfold Obligations.NineBytesExactlyForLargePatterns
  intro v s hv
  refine ⟨encodeResult (u64 v), exec_encode _ s, encodeResult_outLen_eq_nine_iff, fun hneg => ?_⟩
  have hlarge : 2 ^ 63 ≤ (u64 v).toNat := by
    by_contra hsmall
    have hnonneg := s64_nonneg (Nat.not_le.mp hsmall)
    rw [s64_u64 hv] at hnonneg
    omega
  refine encodeResult_outLen_eq_nine_iff.mpr (BitVec.lt_def.mpr (Nat.lt_of_lt_of_le ?_ hlarge))
  decide

/-- Settles O27: among the varints of a value ENCODE's is the only shortest one, and a response of ENCODE shows its
bytes. -/
theorem encodeAfterDecode : Obligations.EncodeAfterDecode := by
  unfold Obligations.EncodeAfterDecode
  refine ⟨fun bytes v s h => ?_, fun u w s h => ?_, fun v s => ?_, ?_⟩
  · refine ⟨encodeBytes v, exec_encode v s, (encodeBytes_length_range v).2, ⟨?_, fun hmin => ?_⟩, fun hne => ?_⟩
    · rintro rfl other hother
      exact encodeBytes_length_le hother
    · exact eq_encodeBytes_of_length_le h (hmin _ (decodesTo_encodeBytes v))
    · exact Nat.lt_of_not_le fun hle => hne (eq_encodeBytes_of_length_le h hle)
  · rw [exec_encode, exec_encode, next_offer_inj] at h
    exact encodeResult_injective h
  · refine ⟨encodeBytes v, decodesTo_encodeBytes v, exec_encode v s, fun u other h hother => ?_⟩
    obtain ⟨hvarint, hpattern⟩ := decodesTo_iff.mp hother
    rw [exec_encode, next_offer_inj] at h
    obtain rfl : encodeBytes u = other := okResponse_bytes_inj (encodeBytes_length_range u).2 hvarint.2.1 h
    obtain rfl : u = v := BitVec.eq_of_toNat_eq (by rw [← varintPattern_encodeBytes u, hpattern])
    rfl
  · have hzero := decodesTo_encodeBytes 0
    exact ⟨encodeBytes 0, 0x80#8 :: encodeBytes 0, 0, (List.cons_ne_self _ _).symm, hzero,
      hzero.zeroChunk_cons (by decide)⟩

/-- Settles O28: both find the same terminal byte in the same bytes. -/
theorem probeAgreesWithDecode : Obligations.ProbeAgreesWithDecode := by
  unfold Obligations.ProbeAgreesWithDecode
  intro b c s t hb hc hlen hlanes _
  have hbytes : suppliedBytes b = suppliedBytes c :=
    suppliedBytes_congr (by rw [hlen]) fun i hi => bundleLane_congr hlanes (hi.trans_le (nAvail_le _))
  refine ⟨probeResult (lenField b) (suppliedBytes b), decodeResult (lenField b) (suppliedBytes b), ?_, ?_,
    (decodeResult_status_eq_probeResult_status (suppliedBytes_length b)).symm,
    (decodeResult_outLen_eq_probeResult_outLen (suppliedBytes_length b)).symm⟩
  · rw [decodeReq_of_probe hb, exec_probe]
  · rw [decodeReq_of_decode hc, exec_decode, hlen, hbytes]

/-- Settles O29: both requests begin with the same varint. -/
theorem prefixLaw : Obligations.PrefixLaw := by
  unfold Obligations.PrefixLaw
  intro b c hb hop hT hlanes hlen s
  have h8 := terminalIndex_le (suppliedBytes b)
  have hprefix : (suppliedBytes b).take (terminalIndex (suppliedBytes b) + 1) <+: suppliedBytes c := by
    have hc : terminalIndex (suppliedBytes b) + 1 ≤ nAvail (lenField c) :=
      Nat.le_min.mpr ⟨hlen, Nat.succ_le_succ h8⟩
    have hsame : (List.range (terminalIndex (suppliedBytes b) + 1)).map (bundleLane b) =
        (List.range (terminalIndex (suppliedBytes b) + 1)).map (bundleLane c) :=
      List.map_congr_left fun i hi => (hlanes i (Nat.le_of_lt_succ (List.mem_range.mp hi))).symm
    rw [suppliedBytes_take b hT, hsame, ← suppliedBytes_take c hc]
    exact List.take_prefix _ _
  exact exec_decodeReq_congr
    (Exec_congr_of_prefix hop hb (isVarint_take (by simpa using hT)) (List.take_prefix _ _) hprefix) s

/-- Settles O24: the pattern's two readings are those of `BitVec`, whose sign is the top bit. -/
theorem reinterpretationLaws : Obligations.ReinterpretationLaws := by
  unfold Obligations.ReinterpretationLaws
  exact ⟨fun v hv => s64_u64 hv, fun u => ⟨u64_s64 u, isInt64_s64 u⟩, s64_neg_iff⟩

end Sys2Proof.Machine

/-! ## Exceptions (60_exceptions.md) -/

namespace Sys2Proof.Machine

variable {b : Bundle}

/-! ### The status of a response, by the op of the request (R161, R162, R164) -/

theorem Exec_of_rsvd (h : opField b = 0b11#2) : Exec b = errorResponse .illegalOp := by
  rw [Exec, decodeReq_of_rsvd h]
  rfl

theorem Exec_status_of_encode (h : opField b = 0b10#2) : (Exec b).status = .ok := by
  rw [Exec, decodeReq_of_encode h]
  rfl

/-- PROBE and DECODE have one status. -/
theorem Exec_status_of_scan (h : opField b = 0b00#2 ∨ opField b = 0b01#2) :
    (Exec b).status = (probeResult (lenField b) (suppliedBytes b)).status := by
  rcases h with h | h
  · rw [Exec, decodeReq_of_probe h, answer]
  · rw [Exec, decodeReq_of_decode h, answer, decodeResult_status_eq_probeResult_status (suppliedBytes_length b)]

/-- A bundle supplies no terminal byte exactly if fewer than nine lanes are available, each with bit 7 set (R161). -/
theorem suppliedBytes_length_le_terminalIndex_iff (b : Bundle) :
    (suppliedBytes b).length ≤ terminalIndex (suppliedBytes b) ↔
      nAvail (lenField b) < 9 ∧ ∀ i, i < nAvail (lenField b) → highBit (bundleLane b i) = true := by
  rw [length_le_terminalIndex_iff, suppliedBytes_length]
  refine and_congr_right fun _ => forall₂_congr fun i hi => ?_
  rw [List.getD_eq_getElem?_getD, suppliedBytes_getElem? b hi, Option.getD_some]

theorem Exec_status_eq_insufficientInput_iff (b : Bundle) : (Exec b).status = .insufficientInput ↔
    (opField b = 0b00#2 ∨ opField b = 0b01#2) ∧
      nAvail (lenField b) < 9 ∧ ∀ i, i < nAvail (lenField b) → highBit (bundleLane b i) = true := by
  rcases or_assoc.mpr (opField_cases b) with h | h | h
  · rw [Exec_status_of_scan h, probeResult_status_eq_insufficientInput_iff (suppliedBytes_length b),
      suppliedBytes_length_le_terminalIndex_iff, and_iff_right h]
  · simp [Exec_status_of_encode h, h]
  · simp [Exec_of_rsvd h, errorResponse, h]

theorem Exec_status_eq_illegalOp_iff (b : Bundle) : (Exec b).status = .illegalOp ↔ opField b = 0b11#2 := by
  refine ⟨fun hstatus => ?_, fun h => by rw [Exec_of_rsvd h]; rfl⟩
  rcases or_assoc.mpr (opField_cases b) with h | h | h
  · rw [Exec_status_of_scan h] at hstatus
    rcases probeResult_status_cases (lenField b) (suppliedBytes b) with hp | hp <;> simp [hp] at hstatus
  · simp [Exec_status_of_encode h] at hstatus
  · exact h

/-! ### A response replaces the one on offer (R167, R168) -/

@[simp] theorem State.respond_respond (s : State) (r q : Response) : (s.respond r).respond q = s.respond q := rfl

/-! ### The obligations -/

/-- Settles O32: by the status of each op; PROBE and DECODE fail exactly where no terminal byte is supplied. -/
theorem onlyTheNamedErrors : Obligations.OnlyTheNamedErrors := by
  unfold Obligations.OnlyTheNamedErrors
  exact fun b s => ⟨Exec b, exec_decodeReq b s, Exec_status_eq_insufficientInput_iff b, Exec_status_eq_illegalOp_iff b,
    Exec_status_of_encode, answer_of_status_ne_ok⟩

/-- Settles O30: the reserved request's answer is the error response, and answering changes only what is on offer. -/
theorem reservedOpIsAnsweredIllegal : Obligations.ReservedOpIsAnsweredIllegal := by
  unfold Obligations.ReservedOpIsAnsweredIllegal
  refine ⟨exec_eq .rsvd, fun b s h => ?_⟩
  rw [exec_decodeReq, Exec_of_rsvd h]
  rfl

/-- Settles O50: the second response takes the place of the first, and nothing else of the state has changed. -/
theorem errorsDoNotStick : Obligations.ErrorsDoNotStick := by
  unfold Obligations.ErrorsDoNotStick
  intro b c s s₁ s₂ hb hc
  rw [exec_decodeReq, Host.Outcome.next.injEq] at hb
  subst hb
  rw [← hc, exec_decodeReq, exec_decodeReq, State.respond_respond]

end Sys2Proof.Machine

/-! ## Reset and hazards (70_reset_and_hazards.md) -/

namespace Sys2Proof.Machine

variable {t : Timing} {s s' : State} {max : Nat}

/-! ### While `rst` is asserted nothing transfers (R180) -/

theorem transferIn_of_inReset (h : s.inReset = true) : s.transferIn t = none := by
  refine Option.eq_none_iff_forall_ne_some.mpr fun b hb => ?_
  obtain ⟨-, hready⟩ := (transferIn_eq_some t s).mp hb
  simp [reqReady_of_inReset h] at hready

theorem transferOut_of_inReset (h : s.inReset = true) : s.transferOut = none := by
  refine Option.eq_none_iff_forall_ne_some.mpr fun r hr => ?_
  obtain ⟨hin, -, -⟩ := (transferOut_eq_some s).mp hr
  simp [h] at hin

/-! ### The host's request from one cycle to the next (R185) -/

/-- A request that does not transfer is still at the pins after the cycle, also after one with `rst` = 1. -/
theorem exists_cycle_reqIn_of_not_accepted (h : s.accepts t = none) :
    ∃ s', cycle t s = .next s' ∧ s'.reqIn = s.hostDrives.reqIn := by
  cases hr : s.nextMove.rst with
  | true => exact ⟨_, cycle_of_reset t s hr, rfl⟩
  | false =>
    obtain ⟨s', hs, hcycle⟩ := exists_cycleWithoutReset t hr
    refine ⟨s', hs, ?_⟩
    rw [hcycle.reqIn, h]; rfl

theorem hostDrives_reqIn_of_held {b : Bundle} (h : s.reqIn = some b) (hr : s.nextMove.rst = false) :
    s.hostDrives.reqIn = some b := by
  simp [h, hr]

/-! ### The transaction-level machine (R189) -/

theorem applyMoves_append (max : Nat) (l m : List Move) (x : Transactions) :
    applyMoves max (l ++ m) x = (applyMoves max l x).bind (applyMoves max m) := by
  induction l generalizing x with
  | nil => rfl
  | cons a l ih =>
    simp only [List.cons_append, applyMoves]
    cases a.apply max x with
    | none => rfl
    | some y => exact ih y

theorem applyMoves_reset (max : Nat) (x : Transactions) :
    applyMoves max [.reset] x = some ⟨[], true, x.received⟩ := rfl

/-- `Release` where the machine is in reset, and no step elsewhere. -/
theorem applyMoves_release (max : Nat) (x : Transactions) :
    applyMoves max (if x.inReset then [.release] else []) x = some ⟨x.pending, false, x.received⟩ := by
  obtain ⟨pending, inReset, received⟩ := x
  cases inReset <;> rfl

/-- `Respond` for a response that is `Exec` of the oldest request, and no step for none. -/
theorem applyMoves_respond {o : Option Response} {pending : List Bundle}
    (h : ∀ r, o = some r → ∃ b, pending = b :: pending.tail ∧ r = Exec b) (received : List Response) :
    applyMoves max (o.toList.map fun _ => .respond) ⟨pending, false, received⟩ =
      some ⟨if o.isSome then pending.tail else pending, false, received ++ o.toList⟩ := by
  cases o with
  | none => simp [applyMoves]
  | some r =>
    obtain ⟨b, hpending, rfl⟩ := h r rfl
    rw [hpending]; rfl

/-- `Accept` for a request for which there is room, and no step for none. -/
theorem applyMoves_accept {o : Option Bundle} {pending : List Bundle}
    (h : ∀ b, o = some b → pending.length < max) (received : List Response) :
    applyMoves max (o.toList.map .accept) ⟨pending, false, received⟩ =
      some ⟨pending ++ o.toList, false, received⟩ := by
  cases o with
  | none => simp [applyMoves]
  | some b => simp [applyMoves, Move.apply, h b rfl]

/-! ### The steps of a cycle -/

theorem moves_of_reset (hr : s.nextMove.rst = true) : s.moves t = [.reset] := by
  simp [State.moves, hr]

theorem moves_of_no_reset (hr : s.nextMove.rst = false) : s.moves t =
    (if s.inReset then [.release] else []) ++ (s.delivers.toList.map fun _ => .respond) ++
      (s.accepts t).toList.map .accept := by
  simp [State.moves, State.delivers, State.accepts, hr]

/-- There was room for an accepted request before the edge, and a response that left first only made more. -/
theorem length_lt_of_accepts {b : Bundle} (h : s.accepts t = some b) :
    (if s.delivers.isSome then s.pending.tail else s.pending).length < t.maxOutstanding := by
  obtain ⟨-, hready⟩ := accepts_eq_some.mp h
  obtain ⟨-, hroom, -⟩ := hostDrives_reqReady_eq_true.mp hready
  split
  · rw [List.length_tail]
    omega
  · exact hroom

/-- A cycle with `rst` = 0 is `Release` if it ends a reset, then `Respond` for its delivery and `Accept` for its
acceptance, each enabled in its turn. -/
theorem CycleWithoutReset.applyMoves_moves (h : CycleWithoutReset t s s') (hc : s.Consistent t)
    (hr : s.nextMove.rst = false) :
    applyMoves t.maxOutstanding (s.moves t) s.transactions = some s'.transactions := by
  have hrelease : applyMoves t.maxOutstanding (if s.inReset then [.release] else []) s.transactions =
      some ⟨s.pending, false, s.received⟩ := applyMoves_release _ s.transactions
  rw [moves_of_no_reset hr, applyMoves_append, applyMoves_append, hrelease, Option.bind_some,
    applyMoves_respond fun _ => hc.pending_of_delivers, Option.bind_some,
    applyMoves_accept fun _ => length_lt_of_accepts, State.transactions, h.pending, h.inReset, h.received]

/-- Every cycle refines R189, under any parameters. -/
theorem exists_cycle_applyMoves_moves (hc : s.Consistent t) : ∃ s', cycle t s = .next s' ∧
    applyMoves t.maxOutstanding (s.moves t) s.transactions = some s'.transactions := by
  cases hr : s.nextMove.rst with
  | true =>
    refine ⟨_, cycle_of_reset t s hr, ?_⟩
    rw [moves_of_reset hr, applyMoves_reset]
    simp [State.transactions, hr]
  | false =>
    obtain ⟨s', hs, hcycle⟩ := exists_cycleWithoutReset t hr
    exact ⟨s', hs, hcycle.applyMoves_moves hc hr⟩

/-! ### The obligations -/

/-- Settles O48: an edge with `rst` = 1 is `Reset`; any other is the steps of its two transfers, one after another. -/
theorem cycleRefinesTransactions : Obligations.CycleRefinesTransactions := by
  unfold Obligations.CycleRefinesTransactions
  exact fun s hc => exists_cycle_applyMoves_moves hc

/-- Settles O49: a cycle leaves a request that does not transfer at the pins, and there the host drives it again. -/
theorem hostHoldsRequest : Obligations.HostHoldsRequest := by
  unfold Obligations.HostHoldsRequest
  intro s b hb hnone
  obtain ⟨s', hs, hreqIn⟩ := exists_cycle_reqIn_of_not_accepted hnone
  exact ⟨s', hs, hostDrives_reqIn_of_held (hreqIn.trans hb)⟩

/-- Settles O36: each of the three cases of a cycle answers a next state. -/
theorem everyStepAnswersNext : Obligations.EveryStepAnswersNext := by
  unfold Obligations.EveryStepAnswersNext
  intro s
  obtain ⟨s', hs, -⟩ := cycle_cases Config.timing s
  exact ⟨s', hs⟩

/-- Settles O40: `rst` = 1 holds both output pins at 0, and the edge clears the channel. -/
theorem resetEdgeDiscards : Obligations.ResetEdgeDiscards := by
  unfold Obligations.ResetEdgeDiscards
  intro s hr
  have hin : s.hostDrives.inReset = true := hr
  exact ⟨transferIn_of_inReset hin, transferOut_of_inReset hin, reqReady_of_inReset hin, rspValid_of_inReset hin,
    _, cycle_of_reset Config.timing s hin, rfl, rfl, rfl, reqReady_of_inReset hr, rspValid_of_inReset hr⟩

end Sys2Proof.Machine
